-- ==== Sys2Proof/Word.lean ====
section
/-! DEFINITION. The word types: every quantity of the block is an unsigned 32-bit word or a fixed group of them (R7, R9, R42). -/

namespace Sys2Proof

/-- The width of the port, of a block word, a key word and the reservoir (R7, R44, R50). -/
abbrev Word := BitVec 32

/-- A 64-bit quantity: a nonce, a block counter, the result of BITS (R7). -/
abbrev DWord := BitVec 64

/-- A byte of a label; only the host's nonce derivation has bytes (R90, R42). -/
abbrev Byte := BitVec 8

/-- A block: 16 words, word 0 first (R7). -/
abbrev Block := Vector Word 16

/-- A key: 8 words (R6, R7). -/
abbrev Key := Vector Word 8

end Sys2Proof
end

