-- ==== Sys2Proof/Config.lean ====
section
/-! DEFINITION. What one build of the block fixes: its key and the number of instances. Neither has a value in the spec, so neither has one here. -/

namespace Sys2Proof

/-- KEY (R6): fixed at build time, the same for every instance and stream, written and read by no command.
The spec gives no value (D3, OPEN), so the constant has none: a statement about it holds for every key. Log entry 1. -/
opaque Config.key : Key

/-- How many instances a platform holds beside the first. -/
opaque Config.extraInstances : Nat

/-- N_INSTANCES (R8): at least 1 (spec/93_implementation_defined.md, item 15), otherwise open. Log entry 2. -/
def Config.nInstances : Nat := Config.extraInstances + 1

end Sys2Proof
end

