-- ==== Sys2Proof/Machine/Operands.lean ====
section
/-! DEFINITION. The arithmetic primitives of R10 and the assembly of 64-bit operands from words (R43, R53). -/

namespace Sys2Proof

/-- `add32` (R10): addition modulo 2^32. -/
def add32 (a b : Word) : Word := a + b

/-- `rotl32` (R10), for 1 ≤ r ≤ 31. -/
def rotl32 (x : Word) (r : Nat) : Word := (x <<< r) ||| (x >>> (32 - r))

/-- `shl64` (R10): the bits shifted out are lost. -/
def shl64 (v : DWord) (s : Nat) : DWord := v <<< s

/-- `shr32` (R10): zeros fill in at the top. -/
def shr32 (v : Word) (s : Nat) : Word := v >>> s

/-- `mask` (R10): n ones, for 0 ≤ n ≤ 32. -/
def mask (n : Nat) : Word := BitVec.ofNat 32 (2 ^ n - 1)

/-- `zext_64` (R10) of a word. -/
def zext64 (v : Word) : DWord := v.setWidth 64

/-- `lo32` (R10): bits 31:0. -/
def lo32 (v : DWord) : Word := v.extractLsb' 0 32

/-- `hi32` (R10): bits 63:32. -/
def hi32 (v : DWord) : Word := v.extractLsb' 32 32

/-- A 64-bit operand from its two words, the low word sent first (R43, R53). -/
def join64 (lo hi : Word) : DWord := (zext64 hi <<< 32) ||| zext64 lo

/-- A 64-bit value as the two words that carry it, low word first (R43). -/
def split64 (v : DWord) : List Word := [lo32 v, hi32 v]

end Sys2Proof
end

