-- ==== Sys2Proof/Syntax.lean ====
section
/-! DEFINITION. The commands of the block, one constructor per row of spec/opcode_table.json. -/

namespace Sys2Proof

/-- The four commands (R52). The operands are the assembled ones of R53 and R54. -/
inductive Instr where
  /-- INIT: start a new stream with a nonce (R107). -/
  | init (nonce : DWord)
  /-- BITS: draw the next `n` keystream bits (R106). The encoding admits 0..127 (R54). -/
  | bits (n : Nat)
  /-- BLOCK: evaluate the Core on a nonce and a counter (R79). -/
  | block (nonce : DWord) (counter : DWord)
  /-- STATUS: read the status word and the block counter (R130). -/
  | status
deriving DecidableEq, Repr

end Sys2Proof
end

