-- ==== Sys2Proof/WellFormed.lean ====
section
/-! DEFINITION. When a command has an encoding. -/

namespace Sys2Proof

/-- The count of BITS must fit the 7-bit field N (R54, R61: an assembler refuses `BITS` with n > 127).
Every value of every operand word is legal (R53), so the other commands are always well formed. -/
def Instr.wf : Instr → Bool
  | .init _ => true
  | .bits n => decide (n < 128)
  | .block _ _ => true
  | .status => true

end Sys2Proof
end

