-- ==== Sys2Proof/Decode.lean ====
section
/-! DEFINITION. Command packets: the decoder, total on any words, and the encoder (30_encoding.md). -/

namespace Sys2Proof

/-- The four values of the OP field that select a command (R52). -/
inductive Op where
  | init
  | bits
  | block
  | status
deriving DecidableEq, Repr

/-- Why a command word is ILLEGAL: the three cases of R141, in its order. -/
inductive Reject where
  /-- OP is not 0x01..0x04. -/
  | reservedOp
  /-- The RSV bits 23:7 are not all 0. -/
  | reservedBits
  /-- OP is not 0x02 and the N bits 6:0 are not all 0. -/
  | strayCount
deriving DecidableEq, Repr

/-- What the port makes of the words of a packet. -/
inductive Decoded where
  /-- A whole legal packet, and the words after it. -/
  | complete (i : Instr) (rest : List Word)
  /-- An illegal command word, consumed alone (R55), and the words after it. -/
  | illegal (cw : Word) (why : Reject) (rest : List Word)
  /-- No word yet, or a legal command word whose operand words have not all come (R47). -/
  | incomplete
deriving DecidableEq, Repr

/-- OP = CW[31:24] (R51). -/
def opField (cw : Word) : BitVec 8 := cw.extractLsb' 24 8

/-- RSV = CW[23:7] (R51). -/
def rsvField (cw : Word) : BitVec 17 := cw.extractLsb' 7 17

/-- N = CW[6:0] (R51, R54). -/
def countField (cw : Word) : BitVec 7 := cw.extractLsb' 0 7

/-- The OP value of a command (R52). -/
def opCode : Op → BitVec 8
  | .init => 0x01
  | .bits => 0x02
  | .block => 0x03
  | .status => 0x04

/-- The command an OP value selects; every other value is reserved (R52). -/
def selectOp (op : BitVec 8) : Option Op :=
  if op = 0x01 then some .init
  else if op = 0x02 then some .bits
  else if op = 0x03 then some .block
  else if op = 0x04 then some .status
  else none

/-- How many operand words follow a legal command word (R52, R60). -/
def operandCount : Op → Nat
  | .init => 2
  | .bits => 0
  | .block => 4
  | .status => 0

/-- Legality, from the command word alone (R55). -/
def classify (cw : Word) : Except Reject Op :=
  match selectOp (opField cw) with
  | none => .error .reservedOp
  | some op =>
    if rsvField cw ≠ 0 then .error .reservedBits
    else if op ≠ .bits ∧ countField cw ≠ 0 then .error .strayCount
    else .ok op

/-- The number of words of the command packet that begins with `cw`: 1 + k (R60). -/
def packetLength (cw : Word) : Nat :=
  match classify cw with
  | .error _ => 1
  | .ok op => 1 + operandCount op

/-- A legal packet's operands, from the words after its command word (R53, R54). -/
def readOperands (op : Op) (cw : Word) (ws : List Word) : Decoded :=
  match op with
  | .init =>
    match ws with
    | nonceLo :: nonceHi :: rest => .complete (.init (join64 nonceLo nonceHi)) rest
    | _ => .incomplete
  | .bits => .complete (.bits (countField cw).toNat) ws
  | .block =>
    match ws with
    | nonceLo :: nonceHi :: ctrLo :: ctrHi :: rest =>
      .complete (.block (join64 nonceLo nonceHi) (join64 ctrLo ctrHi)) rest
    | _ => .incomplete
  | .status => .complete .status ws

/-- The decoder: the packet at the front of a list of words (R50, R55, R60). -/
def decode : List Word → Decoded
  | [] => .incomplete
  | cw :: ws =>
    match classify cw with
    | .error why => .illegal cw why ws
    | .ok op => readOperands op cw ws

/-- The command word of R51 with RSV = 0. -/
def commandWord (op : Op) (n : BitVec 7) : Word :=
  ((opCode op).setWidth 32 <<< 24) ||| n.setWidth 32

/-- The encoder: the words of a command packet (R51 to R53, R61). -/
def encode : Instr → List Word
  | .init nonce => commandWord .init 0 :: split64 nonce
  | .bits n => [commandWord .bits (BitVec.ofNat 7 n)]
  | .block nonce counter => commandWord .block 0 :: (split64 nonce ++ split64 counter)
  | .status => [commandWord .status 0]

/-- Five port words, the longest packet (R60), from a number whose bit 0 is bit 0 of the first word; bits at or above `nbits` are 0. -/
def tableWords (nbits w : Nat) : List Word :=
  let v := w % 2 ^ nbits
  [BitVec.ofNat 32 v, BitVec.ofNat 32 (v >>> 32), BitVec.ofNat 32 (v >>> 64),
   BitVec.ofNat 32 (v >>> 96), BitVec.ofNat 32 (v >>> 128)]

/-- The packet of `tableWords`: as many words as its command word asks for. -/
def tablePacket (nbits w : Nat) : List Word :=
  (tableWords nbits w).take (packetLength (BitVec.ofNat 32 (w % 2 ^ nbits)))

/-- The command the decoder reads from a word numbered as spec/opcode_table.json numbers it. -/
def decodeTableWord (nbits w : Nat) : Option Instr :=
  match decode (tablePacket nbits w) with
  | .complete i _ => some i
  | .illegal _ _ _ => none
  | .incomplete => none

end Sys2Proof
end

