-- ==== Sys2Proof/Machine/Response.lean ====
section
/-! DEFINITION. Response packets: result codes, the response word, and the host's reading of a packet (30_encoding.md R57 to R60). -/

namespace Sys2Proof.Machine

/-- The result codes (R58). -/
inductive ResultCode where
  | ok
  | illegal
  | usage
  | noStream
  | faulted
  | exhausted
deriving DecidableEq, Repr

/-- The number of a result code (R58). -/
def ResultCode.code : ResultCode → BitVec 4
  | .ok => 0
  | .illegal => 1
  | .usage => 2
  | .noStream => 3
  | .faulted => 4
  | .exhausted => 5

/-- The result code of a number; 6..15 are never produced (R58), so a host refuses them (D32). -/
def ResultCode.ofCode (c : BitVec 4) : Option ResultCode :=
  if c = 0 then some .ok
  else if c = 1 then some .illegal
  else if c = 2 then some .usage
  else if c = 3 then some .noStream
  else if c = 4 then some .faulted
  else if c = 5 then some .exhausted
  else none

/-- A response: OPE, RC and the data words (R57, R59). -/
structure Response where
  ope : BitVec 8
  rc : ResultCode
  data : List Word
deriving DecidableEq, Repr

/-- The response word RW (R57): OPE in 31:24, zeros in 23:4, RC in 3:0. -/
def responseWord (ope : BitVec 8) (rc : ResultCode) : Word :=
  (ope.setWidth 32 <<< 24) ||| rc.code.setWidth 32

/-- The words of a response packet (R50, R57, R59). -/
def Response.words (r : Response) : List Word :=
  responseWord r.ope r.rc :: r.data

/-- How many data words follow an OK response word (R59, R60). -/
def dataCount : Op → Nat
  | .init => 0
  | .bits => 2
  | .block => 16
  | .status => 3

/-- How many data words follow a response word: none on an error (R59, R60); for a code OK, by OPE. -/
def dataLength (ope : BitVec 8) (rc : ResultCode) : Option Nat :=
  match rc with
  | .ok => (selectOp ope).map dataCount
  | .illegal | .usage | .noStream | .faulted | .exhausted => some 0

/-- The host's reading of one response packet (R60, R166): the packet at the front and the words after it.
It refuses what the block never sends: bits 23:4 not 0, RC 6..15, OK for an OP that is no command, missing data words. -/
def Response.parse : List Word → Option (Response × List Word)
  | [] => none
  | rw :: ws =>
    if rw.extractLsb' 4 20 ≠ (0 : BitVec 20) then none
    else
      match ResultCode.ofCode (rw.extractLsb' 0 4) with
      | none => none
      | some rc =>
        match dataLength (rw.extractLsb' 24 8) rc with
        | none => none
        | some d =>
          if d ≤ ws.length then some (⟨rw.extractLsb' 24 8, rc, ws.take d⟩, ws.drop d) else none

end Sys2Proof.Machine
end

