-- ==== Sys2Proof/Machine/State.lean ====
section
/-! DEFINITION. The state of one instance (R20), the port's contents (R46, R160), the host's side of the port, and why a step can stop. -/

namespace Sys2Proof.Machine

/-- One instance of the block and the host that holds its port. Plain data. -/
structure State where
  /-- NONCE (R21): selects the keystream; only INIT writes it. -/
  nonce : DWord
  /-- CTR (R22): the number of blocks generated since INIT. -/
  ctr : DWord
  /-- WBUF[0..15] (R23): the most recently generated block. -/
  wbuf : Block
  /-- CUR (R24): how many words of the block have been taken, 0..16. -/
  cur : Fin 17
  /-- RES (R25): the bits of the last word taken that are not consumed yet, the next one at bit 0. -/
  res : Word
  /-- AVAIL (R26): the number of valid bits in RES, 0..32 (C1). -/
  avail : Fin 33
  /-- STREAM (R27): an INIT has been performed since reset. -/
  stream : Bool
  /-- FAULT (R28): the current stream has been aborted by exhaustion. -/
  fault : Bool
  /-- The words of a partly received command packet (R47, R160). -/
  rxPacket : List Word
  /-- The words of the response packet that the host has not read (R46, R160). -/
  response : List Word
  /-- The host: words it has offered and the block has not accepted, next one first (R46). -/
  hostSends : List Word
  /-- The host: words it has read, oldest first (R46, R48). -/
  hostGot : List Word
deriving DecidableEq, Repr

/-- No step of the block faults: every error of the spec is a result code in a response, with a defined next state (R140, R158). -/
inductive Fault where
deriving DecidableEq, Repr

/-- Why the model gives no next state. -/
inductive Refusal where
  /-- Raised by an arm of `exec` for a command that has no meaning; no arm raises it. Safe. -/
  | notModelled (mnemonic : String)
  /-- Raised by `step` when operand words of a received command word are missing and the host offers none: a hang without an end state (R47, R158, R169). Safe. -/
  | hostStoppedMidPacket
  /-- Raised by `State.offerNat` for a number that is no 32-bit word (R158). Safe. -/
  | wordTooWide
deriving DecidableEq, Repr

/-- What a step, a command or a host action answers. -/
abbrev Outcome := Host.Outcome State Fault Refusal

/-- The state right after reset (R160). WBUF is unspecified there; this state names 0 for it (log entry 3). The port is empty, and so is the host's side (log entry 4). -/
def State.reset : State where
  nonce := 0
  ctr := 0
  wbuf := Vector.replicate 16 0
  cur := 16
  res := 0
  avail := 0
  stream := false
  fault := false
  rxPacket := []
  response := []
  hostSends := []
  hostGot := []

end Sys2Proof.Machine
end

