-- ==== Sys2Proof/Machine/Ops.lean ====
section
/-! DEFINITION. The operations the commands share: ending a command with a response (R11, R57), the one error operation (R140), and the port's transfers (R46). -/

namespace Sys2Proof.Machine

/-- `respond(OK, data...)` (R11): the command's writes stand, and its response is produced. -/
def respondOk (op : Op) (data : List Word) (s : State) : State × Response :=
  (s, ⟨opCode op, .ok, data⟩)

/-- `abort(rc)` (R11, R140): the error operation. One response word, no data words, and the state `s` as the error leaves it: for every code but EXHAUSTED, the state before the command. -/
def abort (ope : BitVec 8) (rc : ResultCode) (s : State) : State × Response :=
  (s, ⟨ope, rc, []⟩)

/-- FAULT <- 1 (R28). -/
def State.setFault (s : State) : State := { s with fault := true }

/-- `exhaust()` (R104): from the state before the command, so that every write of the command is discarded, FAULT <- 1 and EXHAUSTED. -/
def exhaust (s : State) : State × Response :=
  abort (opCode .bits) .exhausted s.setFault

/-- The response packet waits on the port to be read (R46). -/
def State.putResponse (s : State) (ws : List Word) : State := { s with response := ws }

/-- A command completes: its state and its response become visible together (R45). -/
def deliver (r : State × Response) : Outcome :=
  .next (r.1.putResponse r.2.words)

/-- An illegal command word (R55, R141): RC = ILLEGAL with its OP field copied, no state written. -/
def illegalCmd (cw : Word) (s : State) : State × Response :=
  abort (opField cw) .illegal s

/-- The answer to an illegal command word. -/
def execIllegal (cw : Word) (s : State) : Outcome := deliver (illegalCmd cw s)

/-- The block has accepted a word (R46): `packet` is what it now holds of a command packet, `offered` what the host still offers. -/
def State.accept (s : State) (packet offered : List Word) : State :=
  { s with rxPacket := packet, hostSends := offered }

/-- The host reads one response word, which consumes it (R46, R48); `rest` is what is left to read. -/
def State.readWord (s : State) (w : Word) (rest : List Word) : State :=
  { s with response := rest, hostGot := s.hostGot ++ [w] }

end Sys2Proof.Machine
end

