-- ==== Sys2Proof/Machine/Cipher.lean ====
section
/-! DEFINITION. The BlockCipherCore (40_core.md R70 to R77) and the BLOCK command (R79). -/

namespace Sys2Proof.Machine

/-- The twelve steps of `QR` (R73) on the four words its indices name. -/
def quarter (a b c d : Word) : Word × Word × Word × Word :=
  let a := add32 a b
  let d := rotl32 (d ^^^ a) 16
  let c := add32 c d
  let b := rotl32 (b ^^^ c) 12
  let a := add32 a b
  let d := rotl32 (d ^^^ a) 8
  let c := add32 c d
  let b := rotl32 (b ^^^ c) 7
  (a, b, c, d)

/-- `QR(a, b, c, d)` on the working block (R73); the four indices are distinct (R74). -/
def quarterRound (x : Block) (a b c d : Fin 16) : Block :=
  let r := quarter x[a] x[b] x[c] x[d]
  (((x.set a r.1).set b r.2.1).set c r.2.2.1).set d r.2.2.2

/-- `QR(a, b, c, d)` as R73 writes it: twelve assignments to the working block, in order. The rounds use `quarterRound`, which is the same function on distinct indices. -/
def quarterSteps (x : Block) (a b c d : Fin 16) : Block :=
  let x := x.set a (add32 x[a] x[b])
  let x := x.set d (x[d] ^^^ x[a])
  let x := x.set d (rotl32 x[d] 16)
  let x := x.set c (add32 x[c] x[d])
  let x := x.set b (x[b] ^^^ x[c])
  let x := x.set b (rotl32 x[b] 12)
  let x := x.set a (add32 x[a] x[b])
  let x := x.set d (x[d] ^^^ x[a])
  let x := x.set d (rotl32 x[d] 8)
  let x := x.set c (add32 x[c] x[d])
  let x := x.set b (x[b] ^^^ x[c])
  x.set b (rotl32 x[b] 7)

/-- `ColumnRound` (R74). -/
def columnRound (x : Block) : Block :=
  let x := quarterRound x 0 4 8 12
  let x := quarterRound x 1 5 9 13
  let x := quarterRound x 2 6 10 14
  quarterRound x 3 7 11 15

/-- `DiagonalRound` (R74). -/
def diagonalRound (x : Block) : Block :=
  let x := quarterRound x 0 5 10 15
  let x := quarterRound x 1 6 11 12
  let x := quarterRound x 2 7 8 13
  quarterRound x 3 4 9 14

/-- A double-round (R75). -/
def doubleRound (x : Block) : Block := diagonalRound (columnRound x)

/-- `k` double-rounds. -/
def doubleRounds : Nat → Block → Block
  | 0, x => x
  | k + 1, x => doubleRounds k (doubleRound x)

/-- The initial block `s` (R72). -/
def initialBlock (key : Key) (nonce counter : DWord) : Block :=
  #v[0x61707865, 0x3320646e, 0x79622d32, 0x6b206574,
     key[0], key[1], key[2], key[3], key[4], key[5], key[6], key[7],
     lo32 counter, hi32 counter, lo32 nonce, hi32 nonce]

/-- `Core(K, n, c)` (R77): ten double-rounds of a copy of the initial block (R75), then the word-wise addition of the initial block (R76). -/
def coreBlock (key : Key) (nonce counter : DWord) : Block :=
  let s := initialBlock key nonce counter
  let x := doubleRounds 10 s
  Vector.ofFn fun i => add32 x[i] s[i]

/-- BLOCK (R79): the Core on the host's operands; it reads and writes no stream state. -/
def blockCmd (key : Key) (nonce counter : DWord) (s : State) : State × Response :=
  respondOk .block (coreBlock key nonce counter).toList s

/-- The meaning of BLOCK. -/
def execBlock (nonce counter : DWord) (s : State) : Outcome :=
  deliver (blockCmd Config.key nonce counter s)

end Sys2Proof.Machine
end

