-- ==== Sys2Proof/Machine/Reservoir.lean ====
section
/-! DEFINITION. The KeystreamReservoir: TakeWord, Refill, BitsCore, and the commands INIT and BITS (42_reservoir.md). Every function takes the key as an argument; the meanings give it `Config.key`. -/

namespace Sys2Proof.Machine

/-- `TakeWord` (R101) at a cursor `i` ≤ 15. -/
def State.takeWord (s : State) (i : Fin 16) : State :=
  { s with res := s.wbuf[i], cur := i.succ, avail := 32 }

/-- The block generation of `Refill` (R102): the block of the pre-increment counter, the cursor back to 0, the counter up by 1. -/
def State.generate (s : State) (key : Key) : State :=
  { s with wbuf := coreBlock key s.nonce s.ctr, cur := 0, ctr := s.ctr + 1 }

/-- `Refill` (R102). `none` is exhaustion: a block is needed while CTR = 2^64 - 1 (R103). -/
def refill (key : Key) (s : State) : Option State :=
  if h : s.cur.val < 16 then some (s.takeWord ⟨s.cur.val, h⟩)
  else if s.ctr = BitVec.allOnes 64 then none
  else some ((s.generate key).takeWord 0)

/-- The low `k` bits of RES appended to the result `r` (R105; the mask is D19). -/
def appendBits (r : DWord) (k : Nat) (res : Word) : DWord :=
  shl64 r k ||| zext64 (res &&& mask k)

/-- RES and AVAIL after the last `n` bits of a request are consumed, n ≤ AVAIL (R105). -/
def State.consume (s : State) (n : Nat) : State :=
  { s with res := shr32 s.res n, avail := ⟨s.avail.val - n, by omega⟩ }

/-- The lines of `BitsCore` after its loop (R105). -/
def bitsFinish (r : DWord) (n : Nat) (s : State) : DWord × State :=
  (appendBits r n s.res, s.consume n)

/-- The loop of `BitsCore` and the lines after it (R105), for at most `fuel` turns; `none` is exhaustion. -/
def bitsLoop (key : Key) : Nat → DWord → Nat → State → Option (DWord × State)
  | 0, r, n, s => some (bitsFinish r n s)
  | fuel + 1, r, n, s =>
    if s.avail.val ≤ n then
      match refill key s with
      | none => none
      | some t => bitsLoop key fuel (appendBits r s.avail.val s.res) (n - s.avail.val) t
    else some (bitsFinish r n s)

/-- `BitsCore(n)` for n ≤ 64 (R105): its loop runs at most 3 times (R105, R117; log entry 12). -/
def bitsCore (key : Key) (n : Nat) (s : State) : Option (DWord × State) :=
  bitsLoop key 3 0 n s

/-- BITS (R106), its checks in the order of R147. -/
def bitsCmd (key : Key) (n : Nat) (s : State) : State × Response :=
  if 64 < n then abort (opCode .bits) .usage s
  else if s.stream = false then abort (opCode .bits) .noStream s
  else if s.fault = true then abort (opCode .bits) .faulted s
  else
    match bitsCore key n s with
    | none => exhaust s
    | some (r, t) => respondOk .bits (split64 r) t

/-- The meaning of BITS. -/
def execBits (n : Nat) (s : State) : Outcome :=
  deliver (bitsCmd Config.key n s)

/-- The register writes of INIT (R107); WBUF keeps its contents. -/
def State.startStream (s : State) (nonce : DWord) : State :=
  { s with nonce := nonce, ctr := 0, cur := 16, res := 0, avail := 0, stream := true, fault := false }

/-- INIT (R107): accepted in every state, every nonce accepted (R93). -/
def initCmd (nonce : DWord) (s : State) : State × Response :=
  respondOk .init [] (s.startStream nonce)

/-- The meaning of INIT. -/
def execInit (nonce : DWord) (s : State) : Outcome :=
  deliver (initCmd nonce s)

end Sys2Proof.Machine
end

