-- ==== Sys2Proof/Machine/Flags.lean ====
section
/-! DEFINITION. The status word SR: a read-only view of STREAM, FAULT, AVAIL and CUR (R29, R131). The block has no other flags. -/

namespace Sys2Proof.Machine

/-- A 1-bit flag as a word. -/
def flagWord (b : Bool) : Word := if b then 1 else 0

/-- SR (R130, R131): CUR in 20:16, AVAIL in 13:8, FAULT in 1, STREAM in 0, every other bit 0. -/
def statusWord (s : State) : Word :=
  (BitVec.ofNat 32 s.cur.val <<< 16) ||| (BitVec.ofNat 32 s.avail.val <<< 8)
    ||| (flagWord s.fault <<< 1) ||| flagWord s.stream

end Sys2Proof.Machine
end

