-- ==== Sys2Proof/Machine/Status.lean ====
section
/-! DEFINITION. The STATUS command (43_status.md R130). -/

namespace Sys2Proof.Machine

/-- STATUS (R130): SR, then CTR low word first; it writes nothing and completes in every state. -/
def statusCmd (s : State) : State × Response :=
  respondOk .status (statusWord s :: split64 s.ctr) s

/-- The meaning of STATUS. -/
def execStatus (s : State) : Outcome := deliver (statusCmd s)

end Sys2Proof.Machine
end

