-- ==== Sys2Proof/Machine/Dispatch.lean ====
section
/-! DEFINITION. One arm per command (R52). -/

namespace Sys2Proof.Machine

/-- What a command does to the state: its effect and its response on the port. -/
def exec (i : Instr) (s : State) : Host.Outcome State Fault Refusal :=
  match i with
  | .init nonce => Sys2Proof.Machine.execInit nonce s
  | .bits n => Sys2Proof.Machine.execBits n s
  | .block nonce counter => Sys2Proof.Machine.execBlock nonce counter s
  | .status => Sys2Proof.Machine.execStatus s

end Sys2Proof.Machine
end

