-- ==== Sys2Proof/Machine/Step.lean ====
section
/-! DEFINITION. One step: one transfer of a word on the port (R44, R46). A command runs, atomically (R45), in the step that brings the last word of its packet. -/

namespace Sys2Proof.Machine

/-- The block has received `packet`, and the host still offers `offered`: run it if it is whole (R45, R55), else keep it and wait (R47). -/
def receive (packet offered : List Word) (s : State) : Outcome :=
  match decode packet with
  | .complete i rest => exec i (s.accept rest offered)
  | .illegal cw _ rest => execIllegal cw (s.accept rest offered)
  | .incomplete => .next (s.accept packet offered)

/-- One step. While a response waits, the host reads its next word and the block accepts none (R46).
Otherwise the block accepts the word offered. With none offered it is idle and holds its state (R157), or, in the middle of a packet, hangs (R47, R158). -/
def step (s : State) : Host.Outcome State Fault Refusal :=
  match s.response with
  | w :: rest => .next (s.readWord w rest)
  | [] =>
    match s.hostSends with
    | w :: offered => receive (s.rxPacket ++ [w]) offered s
    | [] => if s.rxPacket = [] then .next s else .refused .hostStoppedMidPacket

/-- `s` with the packet of a table word at the front of what the port takes next: all but its last word already received, the last one offered, no response waiting. The next step accepts that word and runs the command (log entry 14). -/
def State.withFetchWord (s : State) (nbits w : Nat) : State :=
  let p := tablePacket nbits w
  { s with response := [], rxPacket := p.take (p.length - 1), hostSends := p.drop (p.length - 1) ++ s.hostSends }

end Sys2Proof.Machine
end

