-- ==== Sys2Proof/Machine/Asm.lean ====
section
/-! DEFINITION. The assembler of command streams (30_encoding.md R61). `none` is a line the assembler refuses; log entry 17 says what R61 leaves open about the text. -/

namespace Sys2Proof.Machine

/-- What one line of assembly stands for. -/
inductive AsmLine where
  /-- Nothing, or a comment. -/
  | blank
  /-- A command. -/
  | command (i : Instr)
  /-- `.word`: a word, verbatim. -/
  | word (w : Word)
deriving DecidableEq, Repr

/-- The line without its comment, which a `;` starts (R61). -/
def stripComment (cs : List Char) : List Char := cs.takeWhile (· != ';')

/-- A token that ends joins the tokens read so far. -/
def closeToken (cur : List Char) (toks : List (List Char)) : List (List Char) :=
  if cur = [] then toks else cur.reverse :: toks

/-- The tokens of a line: separated by white space, a comma a token of its own. `cur` is the token being read, reversed. -/
def tokens : List Char → List Char → List (List Char)
  | cur, [] => closeToken cur []
  | cur, c :: cs =>
    if c.isWhitespace then closeToken cur (tokens [] cs)
    else if c = ',' then closeToken cur ([','] :: tokens [] cs)
    else tokens (c :: cur) cs

/-- The value of a digit in base `base`, which is 10 or 16. -/
def digitValue (base : Nat) (c : Char) : Option Nat :=
  if '0'.toNat ≤ c.toNat ∧ c.toNat ≤ '9'.toNat then some (c.toNat - '0'.toNat)
  else if base = 16 ∧ 'a'.toNat ≤ c.toLower.toNat ∧ c.toLower.toNat ≤ 'f'.toNat then
    some (c.toLower.toNat - 'a'.toNat + 10)
  else none

/-- Digits in base `base`, after the value `acc`. -/
def digitsValue (base : Nat) : Nat → List Char → Option Nat
  | acc, [] => some acc
  | acc, c :: cs =>
    match digitValue base c with
    | none => none
    | some d => digitsValue base (acc * base + d) cs

/-- A number, decimal or `0x` hexadecimal (R61). -/
def parseNumber : List Char → Option Nat
  | [] => none
  | '0' :: 'x' :: cs => if cs = [] then none else digitsValue 16 0 cs
  | cs => digitsValue 10 0 cs

/-- A number below `bound` (R61: each operand has its range). -/
def parseBelow (bound : Nat) (cs : List Char) : Option Nat :=
  match parseNumber cs with
  | none => none
  | some v => if v < bound then some v else none

/-- A line's tokens; the mnemonic in any case (R61). -/
def parseTokens : List (List Char) → Option AsmLine
  | [] => some .blank
  | m :: args =>
    let name := m.map Char.toUpper
    if name = "INIT".toList then
      match args with
      | [n] => (parseBelow (2 ^ 64) n).map fun v => .command (.init (BitVec.ofNat 64 v))
      | _ => none
    else if name = "BITS".toList then
      match args with
      | [n] => (parseBelow 128 n).map fun v => .command (.bits v)
      | _ => none
    else if name = "BLOCK".toList then
      match args with
      | [n, [','], c] =>
        match parseBelow (2 ^ 64) n, parseBelow (2 ^ 64) c with
        | some vn, some vc => some (.command (.block (BitVec.ofNat 64 vn) (BitVec.ofNat 64 vc)))
        | _, _ => none
      | _ => none
    else if name = "STATUS".toList then
      match args with
      | [] => some (.command .status)
      | _ => none
    else if name = ".WORD".toList then
      match args with
      | [w] => (parseBelow (2 ^ 32) w).map fun v => .word (BitVec.ofNat 32 v)
      | _ => none
    else none

/-- One line of text. -/
def parseLine (line : String) : Option AsmLine :=
  parseTokens (tokens [] (stripComment line.toList))

/-- The words a line stands for (R61). -/
def AsmLine.words : AsmLine → List Word
  | .blank => []
  | .command i => encode i
  | .word w => [w]

/-- The words of a command stream, one command per line (R61). -/
def assemble : List String → Option (List Word)
  | [] => some []
  | l :: ls =>
    match parseLine l, assemble ls with
    | some a, some ws => some (a.words ++ ws)
    | _, _ => none

end Sys2Proof.Machine
end

