-- ==== Sys2Proof/Machine/HostPort.lean ====
section
/-! DEFINITION. What the host can do between two steps: offer a word, raise reset (R46, R47, R160). Reading a response word is a step of the machine. -/

namespace Sys2Proof.Machine

/-- The host offers one more word (R46). -/
def State.offer (s : State) (w : Word) : State := { s with hostSends := s.hostSends ++ [w] }

/-- The host offers a number as a word; one that does not fit 32 bits is refused (R158). -/
def State.offerNat (s : State) (w : Nat) : Outcome :=
  if w < 2 ^ 32 then .next (s.offer (BitVec.ofNat 32 w)) else .refused .wordTooWide

/-- The reset signal (R160): every register at its reset value, the port cleared. WBUF takes any value, `wbuf`. What the host still means to send and what it has read are its own (log entry 9). -/
def State.resetSignal (s : State) (wbuf : Block) : State :=
  { nonce := 0, ctr := 0, wbuf := wbuf, cur := 16, res := 0, avail := 0, stream := false, fault := false,
    rxPacket := [], response := [], hostSends := s.hostSends, hostGot := s.hostGot }

/-- `k` steps of one instance, with no host action between them but the reading of responses. -/
def steps : Nat → State → Outcome
  | 0, s => .next s
  | k + 1, s =>
    match step s with
    | .next t => steps k t
    | .fault r => .fault r
    | .refused r => .refused r

end Sys2Proof.Machine
end

