-- ==== Sys2Proof/Machine/Identity.lean ====
section
/-! DEFINITION. The host's nonce derivation (41_identity.md R90, R91). The block has no command for it (R93). -/

namespace Sys2Proof.Machine

/-- `ConstructionError` (R91), raised by the host and never by the block. -/
inductive ConstructionError where
  /-- The label is longer than 4 bytes. -/
  | labelTooLong
  /-- A label byte is 0x00. -/
  | zeroByte
deriving DecidableEq, Repr

/-- The loop of `NonceOf` (R90), from the label byte at position `i`: each byte is ORed in, shifted by 4 + i bits. -/
def mixLabel : Nat → List Byte → DWord → DWord
  | _, [], nonce => nonce
  | i, b :: bs, nonce => mixLabel (i + 1) bs (nonce ||| shl64 (b.setWidth 64) (4 + i))

/-- `NonceOf(label, tid)` (R90, R91). -/
def nonceOf (label : List Byte) (tid : Word) : Except ConstructionError DWord :=
  if 4 < label.length then .error .labelTooLong
  else if (0 : Byte) ∈ label then .error .zeroByte
  else .ok (mixLabel 0 label (zext64 tid))

end Sys2Proof.Machine
end

