-- ==== Sys2Proof/Machine/Platform.lean ====
section
/-! DEFINITION. A platform: independent instances that share KEY and nothing else (R8, R155). -/

namespace Sys2Proof.Machine

/-- `n` instances of the block, each with its own state and port (R8). -/
structure Platform (n : Nat) where
  instances : Vector State n
deriving DecidableEq, Repr

/-- The platform of the build, with N_INSTANCES instances (R8, log entry 2). -/
abbrev BuildPlatform := Platform Config.nInstances

/-- The instance `i` becomes `s`. -/
def Platform.put {n : Nat} (p : Platform n) (i : Fin n) (s : State) : Platform n :=
  { instances := p.instances.set i s }

/-- One step of instance `i`; the host tells instances apart by their ports (R155). -/
def Platform.stepInstance {n : Nat} (p : Platform n) (i : Fin n) : Host.Outcome (Platform n) Fault Refusal :=
  match step p.instances[i] with
  | .next t => .next (p.put i t)
  | .fault r => .fault r
  | .refused r => .refused r

/-- A word offered on the port of instance `i`. -/
def Platform.offer {n : Nat} (p : Platform n) (i : Fin n) (w : Word) : Platform n :=
  p.put i (p.instances[i].offer w)

/-- The build's platform right after reset. -/
def Platform.reset : BuildPlatform := { instances := Vector.replicate Config.nInstances State.reset }

end Sys2Proof.Machine
end

