-- ==== Sys2Proof/Machine/Stream.lean ====
section
/-! DEFINITION. The stream as the spec talks about it: its position (R31), its bits (R114), the value of a draw in closed form (R115) and the work of a draw (R117). -/

namespace Sys2Proof.Machine

/-- The stream position P (R31): keystream bits consumed since INIT. -/
def streamPos (s : State) : Nat :=
  if s.ctr = 0 then 0 else 512 * (s.ctr.toNat - 1) + 32 * s.cur.val - s.avail.val

/-- Word `j` of the keystream: word `j mod 16` of block `j div 16`. -/
def keystreamWord (key : Key) (nonce : DWord) (j : Nat) : Word :=
  (coreBlock key nonce (BitVec.ofNat 64 (j / 16)))[j % 16]'(Nat.mod_lt _ (by decide))

/-- KS(k) (R114): bit `k mod 32` of word `(k div 32) mod 16` of block `k div 512`. -/
def keystreamBit (key : Key) (nonce : DWord) (k : Nat) : Bool :=
  ((coreBlock key nonce (BitVec.ofNat 64 (k / 512)))[(k / 32) % 16]'(Nat.mod_lt _ (by decide))).getLsbD (k % 32)

/-- `seg_j` (R115, step 3): keystream bits a .. a+m-1, the earliest bit least significant. -/
def segmentValue (key : Key) (nonce : DWord) (a m : Nat) : Nat :=
  ((List.range m).map fun k => (keystreamBit key nonce (a + k)).toNat * 2 ^ k).sum

/-- The length of the first segment of the bits p .. p+n-1, cut at multiples of 32 (R115, step 2). -/
def segmentLength (p n : Nat) : Nat := min n (32 - p % 32)

/-- The value of a draw (R115, step 4) of the bits p .. p+n-1: the earliest segment most significant; `fuel` ≥ n segments are enough. -/
def drawSegments (key : Key) (nonce : DWord) : Nat → Nat → Nat → Nat
  | 0, _, _ => 0
  | fuel + 1, p, n =>
    if n = 0 then 0
    else
      segmentValue key nonce p (segmentLength p n) * 2 ^ (n - segmentLength p n)
        + drawSegments key nonce fuel (p + segmentLength p n) (n - segmentLength p n)

/-- The value BITS n returns at position p, in closed form (R115). -/
def drawValue (key : Key) (nonce : DWord) (p n : Nat) : Nat :=
  drawSegments key nonce n p n

/-- The refills of a BITS n that completes OK, with AVAIL = a before it (R117). -/
def refillCount (n a : Nat) : Nat :=
  if n < a then 0 else 1 + (n - a) / 32

/-- The word that refill number `j` from here takes, the first being 0 (R101, R102): the words of WBUF from CUR on, then those of the block that CTR counts next. -/
def upcomingWord (key : Key) (s : State) (j : Nat) : Word :=
  if h : s.cur.val + j < 16 then s.wbuf[s.cur.val + j]
  else (coreBlock key s.nonce s.ctr)[(s.cur.val + j) % 16]'(Nat.mod_lt _ (by decide))

/-- The value of a BITS n that completes OK, from RES and the words it takes (R105, R112): the available bits of RES most significant, then every word used whole, then the low bits of the last word. It holds in every state, also one whose RES or WBUF no stream leaves. -/
def drawnValue (key : Key) (n : Nat) (s : State) : Nat :=
  if n < s.avail.val then s.res.toNat % 2 ^ n
  else
    let m := n - s.avail.val
    s.res.toNat % 2 ^ s.avail.val * 2 ^ m
      + ((List.range (m / 32)).map fun j => (upcomingWord key s j).toNat * 2 ^ (m - 32 * (j + 1))).sum
      + (upcomingWord key s (m / 32)).toNat % 2 ^ (m % 32)

/-- BITS n needs a block that the stream cannot generate (R103, R117): more words than WBUF has left, while CTR = 2^64 - 1. -/
def exhausts (n : Nat) (s : State) : Bool :=
  decide (s.ctr = BitVec.allOnes 64 ∧ 16 - s.cur.val < refillCount n s.avail.val)

end Sys2Proof.Machine
end

