-- ==== Sys2Proof/Machine/Transaction.lean ====
section
/-! DEFINITION. Commands as transactions: the step of R13, `step : Params -> State -> Command -> State × Response`, with the key as an argument, and command sequences over it. -/

namespace Sys2Proof.Machine

/-- One command on a block with the key `key` (R13): its next state and its response. -/
def transact (key : Key) (s : State) : Instr → State × Response
  | .init nonce => initCmd nonce s
  | .bits n => bitsCmd key n s
  | .block nonce counter => blockCmd key nonce counter s
  | .status => statusCmd s

/-- One command packet, from the words at the front of a stream of words: its next state, its response, and the words after it. `none` is a packet whose words have not all come. Every other packet, the illegal word's included, has exactly one next state and one response (R13, R55). -/
def transactPacket (key : Key) (s : State) (ws : List Word) : Option ((State × Response) × List Word) :=
  match decode ws with
  | .complete i rest => some (transact key s i, rest)
  | .illegal cw _ rest => some (illegalCmd cw s, rest)
  | .incomplete => none

/-- The state after a sequence of commands (R45). -/
def finalState (key : Key) : State → List Instr → State
  | s, [] => s
  | s, i :: is => finalState key (transact key s i).1 is

/-- The responses to a sequence of commands, in order (R45). -/
def responses (key : Key) : State → List Instr → List Response
  | _, [] => []
  | s, i :: is => (transact key s i).2 :: responses key (transact key s i).1 is

end Sys2Proof.Machine
end

