-- ==== Sys2Proof/Safety.lean ====
section
/-! DEFINITION. The terms claims use: the two forms of a stream's state (R32), the invariant of every reachable state, reachability, and when two states cannot be told apart. -/

namespace Sys2Proof.Machine

/-- The Fresh form (R32): no block generated since INIT or reset. -/
abbrev State.Fresh (s : State) : Prop :=
  s.ctr = 0 ∧ s.cur = 16 ∧ s.avail = 0 ∧ s.res = 0

/-- The Running form (R32). -/
abbrev State.Running (key : Key) (s : State) : Prop :=
  s.ctr ≠ 0 ∧ 1 ≤ s.cur.val ∧ 1 ≤ s.avail.val ∧
    s.wbuf = coreBlock key s.nonce (s.ctr - 1) ∧
    s.res = shr32 (s.wbuf[s.cur.val - 1]'(by omega)) (32 - s.avail.val)

/-- One of the two forms of R32. -/
abbrev State.StreamInv (key : Key) (s : State) : Prop := s.Fresh ∨ s.Running key

/-- No INIT since reset means a Fresh, unaborted state (R27, R160); an aborted stream stands at the last counter value (R104, R145). -/
abbrev State.FlagInv (s : State) : Prop :=
  (s.stream = false → s.Fresh ∧ s.fault = false) ∧ (s.fault = true → s.ctr = BitVec.allOnes 64)

/-- The port holds at most part of one command packet (R47), and none while a response waits (R46). -/
abbrev State.PortInv (s : State) : Prop :=
  decode s.rxPacket = .incomplete ∧ (s.response ≠ [] → s.rxPacket = [])

/-- The invariant of every reachable state. -/
structure State.Inv (key : Key) (s : State) : Prop where
  streamForm : s.StreamInv key
  flags : s.FlagInv
  port : s.PortInv

/-- The states a run can reach: from reset, by steps, words the host offers, and reset signals. -/
inductive Reachable : State → Prop where
  | reset : Reachable State.reset
  | step {s t : State} : Reachable s → Machine.step s = .next t → Reachable t
  | offer {s : State} (w : Word) : Reachable s → Reachable (s.offer w)
  | resetSignal {s : State} (wbuf : Block) : Reachable s → Reachable (s.resetSignal wbuf)

/-- Two states with the same stream: every register equal, but for a WBUF that has no word left to give (R32, D9). -/
structure SameStream (s t : State) : Prop where
  nonce : s.nonce = t.nonce
  ctr : s.ctr = t.ctr
  cur : s.cur = t.cur
  res : s.res = t.res
  avail : s.avail = t.avail
  stream : s.stream = t.stream
  fault : s.fault = t.fault
  wbuf : s.cur = 16 ∨ s.wbuf = t.wbuf

/-- What no command but its own may write: the port's received words and the host's side. -/
structure SameOutside (s t : State) : Prop where
  rxPacket : t.rxPacket = s.rxPacket
  hostSends : t.hostSends = s.hostSends
  hostGot : t.hostGot = s.hostGot

/-- A sequence of BITS commands, each with its count. -/
def draws (counts : List Nat) : List Instr := counts.map Instr.bits

end Sys2Proof.Machine
end

