-- ==== Sys2Proof/Certificates/Slice0/Obligations.lean ====
section
/-! DEFINITION. The statements for the provers. Each names the rule of spec/ it formalises; one that rests on a choice of the model names the log entry. -/

open Sys2Proof Sys2Proof.Machine

/- Encoding (30_encoding.md). -/

/-- Tier 3, derived from R50 to R54, R60, R61: decoding the encoded packet of a well-formed command gives the command back, with every operand at every value, and leaves the words after it. -/
def Obligations.DecodeOfEncodeIsTheCommand : Prop :=
  ∀ (i : Instr) (rest : List Word), i.wf = true → decode (encode i ++ rest) = .complete i rest

/-- Tier 3, derived from R50 to R55, R60: whatever the decoder reads as a command is that command's one encoding, and is well formed. -/
def Obligations.DecodedWordsAreTheEncoding : Prop :=
  ∀ (ws rest : List Word) (i : Instr), decode ws = .complete i rest →
    i.wf = true ∧ ws = encode i ++ rest

/-- R55, R141: a command word is illegal exactly when the formula of R55 fails, whatever follows it; an illegal word is answered ILLEGAL, alone, and changes nothing else. -/
def Obligations.IllegalWordsAreAnsweredAlone : Prop :=
  ∀ (cw : Word),
    ((cw.extractLsb' 24 8 ∈ ([0x01, 0x02, 0x03, 0x04] : List (BitVec 8)) ∧
        cw.extractLsb' 7 17 = (0 : BitVec 17) ∧
        (cw.extractLsb' 24 8 = (0x02 : BitVec 8) ∨ cw.extractLsb' 0 7 = (0 : BitVec 7))) →
      ∀ ws rest : List Word, ∀ cw' why, decode (cw :: ws) ≠ .illegal cw' why rest) ∧
    (¬(cw.extractLsb' 24 8 ∈ ([0x01, 0x02, 0x03, 0x04] : List (BitVec 8)) ∧
        cw.extractLsb' 7 17 = (0 : BitVec 17) ∧
        (cw.extractLsb' 24 8 = (0x02 : BitVec 8) ∨ cw.extractLsb' 0 7 = (0 : BitVec 7))) →
      ∀ (s : State) (offered : List Word), s.response = [] → s.rxPacket = [] →
        s.hostSends = cw :: offered →
        step s = .next { s with
          hostSends := offered
          response := [((cw.extractLsb' 24 8 : BitVec 8).setWidth 32 <<< 24) ||| 1] })

/-- Tier 1, derived from R51 to R53: words written out from the encoding tables decode to what they stand for. -/
def Obligations.SpecWordsDecode : Prop :=
  decode [0x01000000, 0x00000727, 0x80000000] = .complete (.init 0x8000000000000727) [] ∧
  decode [0x0200005f] = .complete (.bits 95) [] ∧
  decode [0x03000000, 0x4a000000, 0x00000000, 0x00000001, 0x09000000] =
    .complete (.block 0x4a000000 0x0900000000000001) [] ∧
  decode [0x04000000, 0x01000000] = .complete .status [0x01000000]

/-- Tier 1, derived from R57: the fields of the response word. -/
def Obligations.ResponseWordFields : Prop :=
  ∀ (ope : BitVec 8) (rc : ResultCode),
    (responseWord ope rc).extractLsb' 24 8 = ope ∧
    (responseWord ope rc).extractLsb' 4 20 = (0 : BitVec 20) ∧
    (responseWord ope rc).extractLsb' 0 4 = rc.code

/-- Tier 2, derived from R57 to R60, R140: in every state every command is answered by a next state whose response is one whole packet, of the length its first word announces, so that a host that reads it by R60 finds it and the words after it. -/
def Obligations.EveryCommandIsAnsweredByOnePacket : Prop :=
  ∀ (i : Instr) (s : State), ∃ t r, exec i s = .next t ∧ t.response = r.words ∧
    dataLength r.ope r.rc = some r.data.length ∧
    ∀ more : List Word, Response.parse (t.response ++ more) = some (r, more)

/-- Tier 1, derived from R61: the assembler encodes a BITS count of up to 127 and refuses a greater one. -/
def Obligations.AssemblerBoundsTheCount : Prop :=
  ∀ (digits : List Char) (v : Nat), parseNumber digits = some v →
    (v < 128 → parseTokens ["bits".toList, digits] = some (.command (.bits v))) ∧
    (128 ≤ v → parseTokens ["bits".toList, digits] = none)

/- The port and the step (20_memory.md). -/

/-- Tier 1, derived from R45, R60 (log entry 5: a step is one word): when the word offered completes a packet that decodes to a command, the step takes the word and runs that command. -/
def Obligations.StepRunsTheDecodedCommand : Prop :=
  ∀ (s : State) (i : Instr) (w : Word) (offered rest : List Word),
    s.response = [] → s.hostSends = w :: offered →
    decode (s.rxPacket ++ [w]) = .complete i rest →
    step s = exec i { s with rxPacket := rest, hostSends := offered }

/-- Tier 1, derived from R47, R53 (log entry 5: a step is one word): a word of a packet whose operand words have not all come is kept, and nothing else happens. -/
def Obligations.StepKeepsAPartOfAPacket : Prop :=
  ∀ (s : State) (w : Word) (offered : List Word),
    s.response = [] → s.hostSends = w :: offered →
    decode (s.rxPacket ++ [w]) = .incomplete →
    step s = .next { s with rxPacket := s.rxPacket ++ [w], hostSends := offered }

/-- Tier 2, derived from R46: while the host has not read the whole response, no word it offers is accepted, and none is lost. That the next steps read the response, one word a step, is the model's choice (log entry 4). -/
def Obligations.PortHoldsWordsUntilTheResponseIsRead : Prop :=
  ∀ (s : State) (k : Nat), k ≤ s.response.length →
    steps k s = .next { s with
      response := s.response.drop k
      hostGot := s.hostGot ++ s.response.take k }

/-- Tier 3, derived from R45, R46, R50, R60: the packet of a command, offered on an idle port, runs the command when its last word is accepted, and reading the response makes the port ready for the words after it. Both step counts are the model's: a step is one word (log entry 5), and while a response waits the host reads one word of it a step (log entry 4). -/
def Obligations.PacketRunsAndIsReadBack : Prop :=
  ∀ (s : State) (i : Instr) (offered : List Word),
    i.wf = true → s.response = [] → s.rxPacket = [] → s.hostSends = encode i ++ offered →
    ∃ t, exec i { s with hostSends := offered } = .next t ∧
      steps (encode i).length s = .next t ∧
      steps ((encode i).length + t.response.length) s =
        .next { t with response := [], hostGot := s.hostGot ++ t.response }

/-- Tier 1, derived from R157 (log entry 7: an idle step): with nothing offered, nothing received and nothing to read, the block holds its state. -/
def Obligations.IdleBlockHoldsItsState : Prop :=
  ∀ s : State, s.response = [] → s.hostSends = [] → s.rxPacket = [] → step s = .next s

/-- Tier 2, derived from R47, R158, R169 (log entry 6: the hang is a refusal): a step gives no next state exactly when the host has stopped in the middle of a packet, and there it is the refusal hostStoppedMidPacket. -/
def Obligations.StepStopsOnlyInAHang : Prop :=
  ∀ s : State,
    ((¬∃ t, step s = .next t) ↔ s.response = [] ∧ s.hostSends = [] ∧ s.rxPacket ≠ []) ∧
    (s.response = [] → s.hostSends = [] → s.rxPacket ≠ [] →
      step s = .refused .hostStoppedMidPacket)

/-- Tier 2, derived from R60 and log entry 14 (the model's placing of a table word): the step after `withFetchWord` runs exactly the command that the word decodes to. -/
def Obligations.FetchWordIsRunNext : Prop :=
  ∀ (s : State) (nbits w : Nat) (i : Instr), decodeTableWord nbits w = some i →
    step (s.withFetchWord nbits w) = exec i { s with response := [], rxPacket := [] }

/-- Tier 1, derived from R13, R45: a command's meaning is its transaction with the build's key, the response put on the port. -/
def Obligations.ExecIsTheTransaction : Prop :=
  ∀ (i : Instr) (s : State),
    exec i s = .next { (transact Config.key s i).1 with
      response := (transact Config.key s i).2.words }

/- The Core (40_core.md). -/

/-- R72: the initial block, word by word. -/
def Obligations.InitialBlockWords : Prop :=
  ∀ (key : Key) (nonce counter : DWord),
    (initialBlock key nonce counter).toList =
      [0x61707865, 0x3320646e, 0x79622d32, 0x6b206574] ++ key.toList ++
        [counter.extractLsb' 0 32, counter.extractLsb' 32 32,
          nonce.extractLsb' 0 32, nonce.extractLsb' 32 32]

/-- Tier 2, derived from R73: on four distinct indices, the quarter-round of the rounds is the twelve assignments of R73 in their order. -/
def Obligations.QuarterRoundIsTheTwelveSteps : Prop :=
  ∀ (x : Block) (a b c d : Fin 16), [a, b, c, d].Nodup →
    quarterRound x a b c d = quarterSteps x a b c d

/-- Tier 2, derived from R73, R74: a quarter-round changes no word but its four. -/
def Obligations.QuarterRoundFrame : Prop :=
  ∀ (x : Block) (a b c d i : Fin 16), i ∉ [a, b, c, d] →
    (quarterRound x a b c d)[i] = x[i]

/-- Tier 2, derived from R74: quarter-rounds on disjoint index sets commute, so the order of the four of a round does not matter. -/
def Obligations.DisjointQuarterRoundsCommute : Prop :=
  ∀ (x : Block) (a b c d e f g h : Fin 16), [a, b, c, d, e, f, g, h].Nodup →
    quarterRound (quarterRound x a b c d) e f g h =
      quarterRound (quarterRound x e f g h) a b c d

/-- R76: output word i is the permuted word plus the initial word, after ten double-rounds. -/
def Obligations.CoreAddsTheInitialBlock : Prop :=
  ∀ (key : Key) (nonce counter : DWord) (i : Fin 16),
    (coreBlock key nonce counter)[i] =
      (doubleRounds 10 (initialBlock key nonce counter))[i] + (initialBlock key nonce counter)[i]

/-- R79: BLOCK completes in every state, answers the Core of its operands, and changes nothing but the response. -/
def Obligations.BlockAnswersTheCore : Prop :=
  ∀ (nonce counter : DWord) (s : State),
    encode (.block nonce counter) =
      [0x03000000, nonce.extractLsb' 0 32, nonce.extractLsb' 32 32,
        counter.extractLsb' 0 32, counter.extractLsb' 32 32] ∧
    exec (.block nonce counter) s = .next { s with
      response := 0x03000000 :: (coreBlock Config.key nonce counter).toList }

/-- Tier 2, derived from R79 (corner cases), R32: in every reachable state with a block generated, BLOCK on the stream's nonce and the last counter used answers the words of WBUF. -/
def Obligations.BlockAgreesWithTheStream : Prop :=
  ∀ s : State, Reachable s → s.ctr ≠ 0 →
    exec (.block s.nonce (s.ctr - 1)) s = .next { s with response := 0x03000000 :: s.wbuf.toList }

/- INIT and BITS (42_reservoir.md). -/

/-- R107: INIT completes in every state, with every nonce; it writes exactly the registers of R107, WBUF not among them, and answers OK. -/
def Obligations.InitStartsAStream : Prop :=
  ∀ (nonce : DWord) (s : State),
    encode (.init nonce) = [0x01000000, nonce.extractLsb' 0 32, nonce.extractLsb' 32 32] ∧
    exec (.init nonce) s = .next { s with
      nonce := nonce, ctr := 0, cur := 16, res := 0, avail := 0, stream := true, fault := false
      response := [0x01000000] }

/-- R102, R101: Refill takes the next word of WBUF; with none left it generates the block of the counter before its increment and takes word 0; it exhausts exactly when that increment would wrap. -/
def Obligations.RefillTakesTheNextWord : Prop :=
  ∀ (key : Key) (s : State),
    (∀ i : Fin 16, s.cur.val = i.val →
      refill key s = some { s with res := s.wbuf[i], cur := i.succ, avail := 32 }) ∧
    (s.cur = 16 → s.ctr ≠ BitVec.allOnes 64 →
      refill key s = some { s with
        wbuf := coreBlock key s.nonce s.ctr
        ctr := s.ctr + 1
        res := (coreBlock key s.nonce s.ctr)[0], cur := 1, avail := 32 }) ∧
    (s.cur = 16 → s.ctr = BitVec.allOnes 64 → refill key s = none)

/-- Tier 2, derived from R105, R117 (log entry 12: the model bounds the loop by 3 turns): for n ≤ 64 the loop of BitsCore ends by its own test, so the bounded loop meets the unbounded loop's equation. -/
def Obligations.BitsLoopEndsByItsOwnTest : Prop :=
  ∀ (key : Key) (r : DWord) (n : Nat) (s : State), n ≤ 64 →
    bitsLoop key 3 r n s =
      if s.avail.val ≤ n then
        match refill key s with
        | none => none
        | some t => bitsLoop key 3 (appendBits r s.avail.val s.res) (n - s.avail.val) t
      else some (appendBits r n s.res, s.consume n)

/-- Tier 1, derived from R111 for n up to 127: BITS n with n above 64 answers USAGE in every state and changes nothing else. A greater n has no encoding; its answer is the model's choice (log entry 13). -/
def Obligations.BitsAboveSixtyFourIsUsage : Prop :=
  ∀ (n : Nat) (s : State), 64 < n → exec (.bits n) s = .next { s with response := [0x02000002] }

/-- R143: BITS without a stream answers NOSTREAM and changes nothing else. -/
def Obligations.BitsWithoutAStreamIsNoStream : Prop :=
  ∀ (n : Nat) (s : State), n ≤ 64 → s.stream = false →
    exec (.bits n) s = .next { s with response := [0x02000003] }

/-- R144: BITS on an aborted stream answers FAULTED and changes nothing else. -/
def Obligations.BitsOnAnAbortedStreamIsFaulted : Prop :=
  ∀ (n : Nat) (s : State), n ≤ 64 → s.stream = true → s.fault = true →
    exec (.bits n) s = .next { s with response := [0x02000004] }

/-- R145, with the effect of R104: BITS that needs more words than WBUF has left, while CTR = 2^64 - 1, answers EXHAUSTED, sets FAULT and writes nothing else. -/
def Obligations.BitsExhaustionDiscardsItsWrites : Prop :=
  ∀ (n : Nat) (s : State), n ≤ 64 → s.stream = true → s.fault = false →
    s.ctr = BitVec.allOnes 64 → 16 - s.cur.val < refillCount n s.avail.val →
    exec (.bits n) s = .next { s with fault := true, response := [0x02000005] }

/-- Tier 2, derived from R147, R146: BITS completes in every state, and its result code is the first that applies of USAGE, NOSTREAM, FAULTED, EXHAUSTED, else OK. -/
def Obligations.BitsResultCodeInPriorityOrder : Prop :=
  ∀ (n : Nat) (s : State), ∃ t rw data, exec (.bits n) s = .next t ∧ t.response = rw :: data ∧
    rw = responseWord 0x02
      (if 64 < n then .usage
       else if s.stream = false then .noStream
       else if s.fault = true then .faulted
       else if exhausts n s = true then .exhausted
       else .ok)

/-- Tier 3, derived from R102, R105, R106, R112, R113, R117: the next state of every draw that meets no error, in closed form, for every state: the value answered, computed from RES and the words taken (`drawnValue`), how many words are taken, when a block is generated, what RES and AVAIL hold, and that nothing else is written. -/
def Obligations.BitsDrawInClosedForm : Prop :=
  ∀ (n : Nat) (s : State), n ≤ 64 → s.stream = true → s.fault = false → exhausts n s = false →
    ∃ t lo hi, exec (.bits n) s = .next t ∧ t.response = [0x02000000, lo, hi] ∧
      (join64 lo hi).toNat = drawnValue Config.key n s ∧ (join64 lo hi).toNat < 2 ^ n ∧
      (16 - s.cur.val < refillCount n s.avail.val →
        t.ctr = s.ctr + 1 ∧ t.wbuf = coreBlock Config.key s.nonce s.ctr ∧
          t.cur.val + 16 = s.cur.val + refillCount n s.avail.val) ∧
      (refillCount n s.avail.val ≤ 16 - s.cur.val →
        t.ctr = s.ctr ∧ t.wbuf = s.wbuf ∧ t.cur.val = s.cur.val + refillCount n s.avail.val) ∧
      (n < s.avail.val → t.avail.val = s.avail.val - n ∧ t.res = s.res >>> n) ∧
      (s.avail.val ≤ n → t.avail.val = 32 - (n - s.avail.val) % 32 ∧ 1 ≤ t.cur.val ∧
        t.res = (t.wbuf[t.cur.val - 1]'(by omega)) >>> ((n - s.avail.val) % 32)) ∧
      t.nonce = s.nonce ∧ t.stream = true ∧ t.fault = false ∧
      t.rxPacket = s.rxPacket ∧ t.hostSends = s.hostSends ∧ t.hostGot = s.hostGot

/-- R115: a draw at position P that meets no error answers the value of R115 of the keystream bits P .. P+n-1, and moves the position to P + n. -/
def Obligations.BitsDrawsTheKeystream : Prop :=
  ∀ (n : Nat) (s : State), s.StreamInv Config.key →
    n ≤ 64 → s.stream = true → s.fault = false → exhausts n s = false →
    ∃ t lo hi, exec (.bits n) s = .next t ∧ t.response = [0x02000000, lo, hi] ∧
      (join64 lo hi).toNat = drawValue Config.key s.nonce (streamPos s) n ∧
      streamPos t = streamPos s + n

/-- R108: BITS 0 answers 0 and does not move the stream position; with bits available it changes no register; in the Fresh state it generates block 0 and takes word 0. -/
def Obligations.BitsZero : Prop :=
  ∀ s : State, s.stream = true → s.fault = false →
    (1 ≤ s.avail.val →
      exec (.bits 0) s = .next { s with response := [0x02000000, 0, 0] }) ∧
    (s.Fresh →
      exec (.bits 0) s = .next { s with
        wbuf := coreBlock Config.key s.nonce 0, ctr := 1, cur := 1, avail := 32
        res := (coreBlock Config.key s.nonce 0)[0]
        response := [0x02000000, 0, 0] }) ∧
    (1 ≤ s.avail.val ∨ s.Fresh →
      ∃ t, exec (.bits 0) s = .next t ∧ streamPos t = streamPos s)

/-- Tier 2, derived from R109 (its first part): BITS 64 in the Fresh state generates one block, takes three words, answers words 0 (high) and 1 (low) and leaves word 2 in RES. -/
def Obligations.BitsSixtyFourOnAFreshStream : Prop :=
  ∀ s : State, s.stream = true → s.fault = false → s.Fresh →
    exec (.bits 64) s = .next { s with
      wbuf := coreBlock Config.key s.nonce 0, ctr := 1, cur := 3, avail := 32
      res := (coreBlock Config.key s.nonce 0)[2]
      response := [0x02000000, (coreBlock Config.key s.nonce 0)[1],
        (coreBlock Config.key s.nonce 0)[0]] }

/-- R110: a draw of exactly the bits available also takes the next word; if that word's block cannot be generated, it answers EXHAUSTED and no data. -/
def Obligations.DrawToTheEndRefillsEagerly : Prop :=
  ∀ s : State, s.stream = true → s.fault = false → 1 ≤ s.avail.val →
    (∀ i : Fin 16, s.cur.val = i.val →
      exec (.bits s.avail.val) s = .next { s with
        res := s.wbuf[i], cur := i.succ, avail := 32
        response := [0x02000000, s.res &&& mask s.avail.val, 0] }) ∧
    (s.cur = 16 → s.ctr ≠ BitVec.allOnes 64 →
      exec (.bits s.avail.val) s = .next { s with
        wbuf := coreBlock Config.key s.nonce s.ctr, ctr := s.ctr + 1
        res := (coreBlock Config.key s.nonce s.ctr)[0], cur := 1, avail := 32
        response := [0x02000000, s.res &&& mask s.avail.val, 0] }) ∧
    (s.cur = 16 → s.ctr = BitVec.allOnes 64 →
      exec (.bits s.avail.val) s = .next { s with fault := true, response := [0x02000005] })

/-- Tier 2, derived from R22, R107: a command leaves CTR, or is INIT and sets it to 0, or is a BITS that generated one block, and then CTR is greater by 1: it never wraps. -/
def Obligations.CounterOnlyCountsBlocks : Prop :=
  ∀ (i : Instr) (s : State), ∃ t, exec i s = .next t ∧
    (t.ctr = s.ctr ∨
      (∃ nonce, i = .init nonce ∧ t.ctr = 0) ∨
      (∃ n, i = .bits n ∧ t.ctr.toNat = s.ctr.toNat + 1 ∧
        t.wbuf = coreBlock Config.key s.nonce s.ctr))

/- Rules about the whole machine. -/

/-- Tier 2, derived from R21: a step that changes NONCE has run an INIT with the new nonce. -/
def Obligations.OnlyInitChangesTheNonce : Prop :=
  ∀ s t : State, step s = .next t → t.nonce ≠ s.nonce →
    ∃ w offered rest, s.response = [] ∧ s.hostSends = w :: offered ∧
      decode (s.rxPacket ++ [w]) = .complete (.init t.nonce) rest

/-- Tier 2, derived from R27: no step clears STREAM, and only INIT sets it. -/
def Obligations.OnlyInitSetsTheStreamFlag : Prop :=
  ∀ s t : State, step s = .next t → t.stream ≠ s.stream →
    t.stream = true ∧ ∃ w offered rest nonce, s.response = [] ∧ s.hostSends = w :: offered ∧
      decode (s.rxPacket ++ [w]) = .complete (.init nonce) rest

/-- Tier 2, derived from R28, R149: FAULT is set only by a BITS that answers EXHAUSTED, and cleared only by INIT. -/
def Obligations.FaultIsStickyUntilInit : Prop :=
  ∀ s t : State, step s = .next t →
    (s.fault = false → t.fault = true → s.response = [] ∧ t.response = [0x02000005]) ∧
    (s.fault = true → t.fault = false →
      ∃ w offered rest nonce, s.response = [] ∧ s.hostSends = w :: offered ∧
        decode (s.rxPacket ++ [w]) = .complete (.init nonce) rest)

/-- Tier 1: the state after reset meets the invariant of `StepKeepsTheInvariant`. -/
def Obligations.ResetMeetsTheInvariant : Prop := State.reset.Inv Config.key

/-- Tier 3, derived from R32, R26, R46, R145, R160: the invariant (the two forms of R32, STREAM and FAULT, the port) holds after every step from a state in which it holds. -/
def Obligations.StepKeepsTheInvariant : Prop :=
  ∀ s t : State, s.Inv Config.key → step s = .next t → t.Inv Config.key

/-- R32: every reachable state is in exactly one of the two forms; RES is below 2^AVAIL and CUR is not 0; and WBUF is read only in Running states: in any other, the same step with another WBUF gives the same next state, its WBUF written alike or left as it was. -/
def Obligations.ReachableStatesAreFreshOrRunning : Prop :=
  ∀ s : State, Reachable s →
    ((s.Fresh ∧ ¬s.Running Config.key) ∨ (s.Running Config.key ∧ ¬s.Fresh)) ∧
    s.res.toNat < 2 ^ s.avail.val ∧ s.cur ≠ 0 ∧
    (¬s.Running Config.key → ∀ (wbuf : Block) (t : State), step s = .next t →
      step { s with wbuf := wbuf } = .next t ∨
        (t.wbuf = s.wbuf ∧ step { s with wbuf := wbuf } = .next { t with wbuf := wbuf }))

/-- Tier 2, derived from R31, R103: the stream position of a stream's state stays below the end of block 2^64 - 2, the last block a stream delivers. -/
def Obligations.PositionStaysInTheDeliveredBlocks : Prop :=
  ∀ s : State, Reachable s → streamPos s < (2 ^ 64 - 1) * 512 ∧ streamPos s < 2 ^ 73

/-- Tier 3, derived from R32, R20, D9: two states that differ at most in a WBUF with no word left answer every sequence of commands alike; so the WBUF that reset leaves (log entry 3) is never seen. -/
def Obligations.SpentWordBufferIsInvisible : Prop :=
  ∀ (key : Key) (s t : State) (is : List Instr), SameStream s t →
    responses key s is = responses key t is

/-- R164, R118: after the same INIT the same commands give the same responses, whatever came before the INIT. -/
def Obligations.StreamIsDeterminedByNonceAndCommands : Prop :=
  ∀ (key : Key) (s t : State) (nonce : DWord) (is : List Instr),
    responses key s (.init nonce :: is) = responses key t (.init nonce :: is)

/-- Tier 3, derived from R116 (a), R100: draws that all complete OK consume as many bits as they ask for in all, and the next draw answers from there. -/
def Obligations.DrawsConsumeTheirSum : Prop :=
  ∀ (key : Key) (s : State) (counts : List Nat) (n : Nat), s.StreamInv key →
    (∀ r ∈ responses key s (draws (counts ++ [n])), r.rc = .ok) →
    streamPos (finalState key s (draws counts)) = streamPos s + counts.sum ∧
    ∃ lo hi, (responses key s (draws (counts ++ [n]))).getLast? = some ⟨0x02, .ok, [lo, hi]⟩ ∧
      (join64 lo hi).toNat = drawValue key s.nonce (streamPos s + counts.sum) n

/-- Tier 3, derived from R116 (b): N draws of one bit answer the raw keystream bits in consumption order. -/
def Obligations.OneBitDrawsAreTheKeystream : Prop :=
  ∀ (key : Key) (s : State) (count : Nat), s.StreamInv key →
    (∀ r ∈ responses key s (draws (List.replicate count 1)), r.rc = .ok) →
    responses key s (draws (List.replicate count 1)) =
      (List.range count).map fun k =>
        ⟨0x02, .ok, [if keystreamBit key s.nonce (streamPos s + k) then 1 else 0, 0]⟩

/- STATUS (43_status.md). -/

/-- R130: STATUS completes OK in every state, answers SR and CTR, low word first, and writes nothing. -/
def Obligations.StatusReportsTheStream : Prop :=
  ∀ s : State,
    encode .status = [0x04000000] ∧
    exec .status s = .next { s with
      response := [0x04000000,
        (BitVec.ofNat 32 s.cur.val <<< 16) ||| (BitVec.ofNat 32 s.avail.val <<< 8) |||
          ((if s.fault then (1 : Word) else 0) <<< 1) ||| (if s.stream then (1 : Word) else 0),
        s.ctr.extractLsb' 0 32, s.ctr.extractLsb' 32 32] }

/-- Tier 2, derived from R131: every field of SR, and every reserved bit 0; the reset column. -/
def Obligations.StatusWordFields : Prop :=
  (∀ s : State,
    (statusWord s).getLsbD 0 = s.stream ∧
    (statusWord s).getLsbD 1 = s.fault ∧
    (statusWord s).extractLsb' 2 6 = (0 : BitVec 6) ∧
    ((statusWord s).extractLsb' 8 6).toNat = s.avail.val ∧
    (statusWord s).extractLsb' 14 2 = (0 : BitVec 2) ∧
    ((statusWord s).extractLsb' 16 5).toNat = s.cur.val ∧
    (statusWord s).extractLsb' 21 11 = (0 : BitVec 11)) ∧
  statusWord State.reset = 0x00100000

/- Stream identity (41_identity.md). -/

/-- R91: the nonce derivation fails exactly for a label longer than 4 bytes or with a zero byte, and the empty label gives the test id. -/
def Obligations.NonceDerivationFailures : Prop :=
  ∀ (label : List Byte) (tid : Word),
    ((∃ e, nonceOf label tid = .error e) ↔ 4 < label.length ∨ 0 ∈ label) ∧
    nonceOf [] tid = .ok (tid.setWidth 64)

/-- R90: bit k of a derived nonce is bit k of the test id, or bit k - 4 - i of the label byte at position i, for some i. -/
def Obligations.NonceBits : Prop :=
  ∀ (label : List Byte) (tid : Word) (nonce : DWord), nonceOf label tid = .ok nonce →
    ∀ k, k < 64 → (nonce.getLsbD k = true ↔ tid.getLsbD k = true ∨
      ∃ i, ∃ h : i < label.length, 4 + i ≤ k ∧ label[i].getLsbD (k - (4 + i)) = true)

/-- Tier 2, derived from R92: the label reaches bits 4 to 14 only. -/
def Obligations.NonceBitsTheLabelCannotReach : Prop :=
  ∀ (label : List Byte) (tid : Word) (nonce : DWord), nonceOf label tid = .ok nonce →
    nonce.extractLsb' 32 32 = (0 : Word) ∧
    nonce.extractLsb' 15 17 = tid.extractLsb' 15 17 ∧
    nonce.extractLsb' 0 4 = tid.extractLsb' 0 4

/- Reset and the platform (70_reset_and_hazards.md, 00_scope.md, 60_exceptions.md). -/

/-- Tier 1, derived from R160: what the reset signal leaves in every register and on the port, from every state, WBUF any value; and the registers of the model's state after reset (its WBUF is log entry 3). That the words the host offers and has read survive the reset is the model's reading (log entry 9). -/
def Obligations.ResetValues : Prop :=
  (∀ (s : State) (wbuf : Block), s.resetSignal wbuf = { s with
    nonce := 0, ctr := 0, cur := 16, res := 0, avail := 0, stream := false, fault := false
    wbuf := wbuf, rxPacket := [], response := [] }) ∧
  ∃ wbuf : Block, State.reset = { State.reset with
    nonce := 0, ctr := 0, cur := 16, res := 0, avail := 0, stream := false, fault := false
    wbuf := wbuf, rxPacket := [], response := [] }

/-- Tier 1, derived from R162 (its last sentence): INIT 0 right after reset differs from the reset state only in STREAM and the response. -/
def Obligations.InitZeroAfterReset : Prop :=
  exec (.init 0) State.reset =
    .next { State.reset with stream := true, response := [0x01000000] }

/-- Tier 2, derived from R8, R155: a step of one instance is that instance's own step and leaves every other instance as it is, and steps of two instances give the same platform in either order. -/
def Obligations.InstancesAreIndependent : Prop :=
  ∀ (n : Nat) (p q r : Platform n) (i j : Fin n), i ≠ j →
    p.stepInstance i = .next q → p.stepInstance j = .next r →
    step p.instances[i] = .next q.instances[i] ∧ q.instances[j] = p.instances[j] ∧
      ∃ u, q.stepInstance j = .next u ∧ r.stepInstance i = .next u

/- The rounds of the Core (40_core.md). -/

/-- R74: the column round and the diagonal round are the quarter-rounds, in the twelve steps of R73, on the index sets of R74, and their order does not matter. -/
def Obligations.RoundsAreTheirQuarterRoundsInAnyOrder : Prop :=
  ∀ (x : Block) (quads : List (Fin 16 × Fin 16 × Fin 16 × Fin 16)),
    (quads.Perm [(0, 4, 8, 12), (1, 5, 9, 13), (2, 6, 10, 14), (3, 7, 11, 15)] →
      quads.foldl (fun y q => quarterSteps y q.1 q.2.1 q.2.2.1 q.2.2.2) x = columnRound x) ∧
    (quads.Perm [(0, 5, 10, 15), (1, 6, 11, 12), (2, 7, 8, 13), (3, 4, 9, 14)] →
      quads.foldl (fun y q => quarterSteps y q.1 q.2.1 q.2.2.1 q.2.2.2) x = diagonalRound x)

/-- R77: the whole Core, with its constants, its index sets and its count of rounds written out: ten times the eight quarter-rounds, each in the twelve steps of R73, on a copy of the initial block, then the addition of the initial block. -/
def Obligations.CoreIsTheWholeAlgorithm : Prop :=
  ∀ (key : Key) (nonce counter : DWord) (s : Block),
    s.toList = [0x61707865, 0x3320646e, 0x79622d32, 0x6b206574] ++ key.toList ++
      [counter.extractLsb' 0 32, counter.extractLsb' 32 32,
        nonce.extractLsb' 0 32, nonce.extractLsb' 32 32] →
    ∀ i : Fin 16, (coreBlock key nonce counter)[i] =
      (Nat.repeat (fun x => [(0, 4, 8, 12), (1, 5, 9, 13), (2, 6, 10, 14), (3, 7, 11, 15),
          (0, 5, 10, 15), (1, 6, 11, 12), (2, 7, 8, 13), (3, 4, 9, 14)].foldl
            (fun (y : Block) (q : Fin 16 × Fin 16 × Fin 16 × Fin 16) =>
              quarterSteps y q.1 q.2.1 q.2.2.1 q.2.2.2) x) 10 s)[i] + s[i]
end

