-- ==== Sys2Proof/Laws/Decode.lean ====
section
/-! SUPPORT. Facts about the encoding: halves and wholes of 64-bit operands, and what a classified command word is. -/

namespace Sys2Proof

theorem join64_lo32_hi32 (v : DWord) : join64 (lo32 v) (hi32 v) = v := by
  apply BitVec.eq_of_getLsbD_eq
  intro i hi
  simp [join64, lo32, hi32, zext64, -BitVec.getLsbD_eq_getElem]
  by_cases h : i < 32
  · simp [h, hi]
  · have e : 32 + (i - 32) = i := by omega
    have h64 : i - 32 < 64 := by omega
    have h32 : i - 32 < 32 := by omega
    simp [h, hi, e, h64, h32]

theorem split64_join64 (lo hi : Word) : split64 (join64 lo hi) = [lo, hi] := by
  simp only [split64, List.cons.injEq, and_true]
  constructor
  · apply BitVec.eq_of_getLsbD_eq
    intro i h
    simp [join64, lo32, zext64, -BitVec.getLsbD_eq_getElem, h]
    omega
  · apply BitVec.eq_of_getLsbD_eq
    intro i h
    have h64 : 32 + i < 64 := by omega
    have h64' : i < 64 := by omega
    simp [join64, hi32, zext64, -BitVec.getLsbD_eq_getElem, h, h64, h64']

theorem commandWord_bits : ∀ n : BitVec 7,
    classify (commandWord .bits n) = .ok .bits ∧ countField (commandWord .bits n) = n := by
  decide

theorem selectOp_eq_some (b : BitVec 8) (op : Op) : selectOp b = some op ↔ b = opCode op := by
  have all : ∀ b : BitVec 8, ∀ op ∈ [Op.init, Op.bits, Op.block, Op.status],
      selectOp b = some op ↔ b = opCode op := by decide
  exact all b op (by cases op <;> simp)

/-- A word with RSV = 0 is the command word of its OP and N fields. -/
theorem word_of_fields (cw : Word) (hrsv : rsvField cw = 0) :
    cw = ((opField cw).setWidth 32 <<< 24) ||| (countField cw).setWidth 32 := by
  apply BitVec.eq_of_getLsbD_eq
  intro i hi
  have bit : ∀ j, (rsvField cw).getLsbD j = false := by simp [hrsv]
  simp only [opField, rsvField, countField] at *
  simp [-BitVec.getLsbD_eq_getElem]
  by_cases h7 : i < 7
  · simp [h7, hi]
    omega
  · by_cases h24 : i < 24
    · have := bit (i - 7)
      simp [-BitVec.getLsbD_eq_getElem] at this
      have e : 7 + (i - 7) = i := by omega
      rw [e] at this
      simp [h24, h7]
      exact this (by omega)
    · have e : 24 + (i - 24) = i := by omega
      have h8 : i - 24 < 8 := by omega
      have h32 : i - 24 < 32 := by omega
      simp [h24, h7, e, hi, h8, h32]

theorem classify_eq_ok (cw : Word) (op : Op) :
    classify cw = .ok op ↔
      opField cw = opCode op ∧ rsvField cw = 0 ∧ (op = .bits ∨ countField cw = 0) := by
  unfold classify
  cases h : selectOp (opField cw) with
  | none =>
    simp
    intro h1
    rw [← selectOp_eq_some] at h1
    simp [h] at h1
  | some op' =>
    have hop := (selectOp_eq_some _ _).1 h
    have inj : ∀ o : Op, opCode op' = opCode o → op' = o := by
      intro o; cases op' <;> cases o <;> decide
    simp only []
    split
    · simp_all
    · split
      · simp
        intro h1
        rw [hop] at h1
        have e := inj op h1
        subst e
        simp_all
      · simp
        constructor
        · rintro rfl
          simp_all
          grind
        · rintro ⟨h1, _⟩
          exact inj op (hop ▸ h1)

end Sys2Proof
end

