-- ==== Sys2Proof/Laws/State.lean ====
section
/-! SUPPORT. One lemma per field per update of State, so that no proof unfolds an update. -/

namespace Sys2Proof.Machine

variable (s : State)

@[simp] theorem State.setFault_nonce : (s.setFault).nonce = s.nonce := rfl
@[simp] theorem State.setFault_ctr : (s.setFault).ctr = s.ctr := rfl
@[simp] theorem State.setFault_wbuf : (s.setFault).wbuf = s.wbuf := rfl
@[simp] theorem State.setFault_cur : (s.setFault).cur = s.cur := rfl
@[simp] theorem State.setFault_res : (s.setFault).res = s.res := rfl
@[simp] theorem State.setFault_avail : (s.setFault).avail = s.avail := rfl
@[simp] theorem State.setFault_stream : (s.setFault).stream = s.stream := rfl
@[simp] theorem State.setFault_fault : (s.setFault).fault = true := rfl
@[simp] theorem State.setFault_rxPacket : (s.setFault).rxPacket = s.rxPacket := rfl
@[simp] theorem State.setFault_response : (s.setFault).response = s.response := rfl
@[simp] theorem State.setFault_hostSends : (s.setFault).hostSends = s.hostSends := rfl
@[simp] theorem State.setFault_hostGot : (s.setFault).hostGot = s.hostGot := rfl

@[simp] theorem State.putResponse_nonce (ws : List Word) : (s.putResponse ws).nonce = s.nonce := rfl
@[simp] theorem State.putResponse_ctr (ws : List Word) : (s.putResponse ws).ctr = s.ctr := rfl
@[simp] theorem State.putResponse_wbuf (ws : List Word) : (s.putResponse ws).wbuf = s.wbuf := rfl
@[simp] theorem State.putResponse_cur (ws : List Word) : (s.putResponse ws).cur = s.cur := rfl
@[simp] theorem State.putResponse_res (ws : List Word) : (s.putResponse ws).res = s.res := rfl
@[simp] theorem State.putResponse_avail (ws : List Word) : (s.putResponse ws).avail = s.avail := rfl
@[simp] theorem State.putResponse_stream (ws : List Word) : (s.putResponse ws).stream = s.stream := rfl
@[simp] theorem State.putResponse_fault (ws : List Word) : (s.putResponse ws).fault = s.fault := rfl
@[simp] theorem State.putResponse_rxPacket (ws : List Word) : (s.putResponse ws).rxPacket = s.rxPacket := rfl
@[simp] theorem State.putResponse_response (ws : List Word) : (s.putResponse ws).response = ws := rfl
@[simp] theorem State.putResponse_hostSends (ws : List Word) : (s.putResponse ws).hostSends = s.hostSends := rfl
@[simp] theorem State.putResponse_hostGot (ws : List Word) : (s.putResponse ws).hostGot = s.hostGot := rfl

@[simp] theorem State.accept_nonce (packet offered : List Word) : (s.accept packet offered).nonce = s.nonce := rfl
@[simp] theorem State.accept_ctr (packet offered : List Word) : (s.accept packet offered).ctr = s.ctr := rfl
@[simp] theorem State.accept_wbuf (packet offered : List Word) : (s.accept packet offered).wbuf = s.wbuf := rfl
@[simp] theorem State.accept_cur (packet offered : List Word) : (s.accept packet offered).cur = s.cur := rfl
@[simp] theorem State.accept_res (packet offered : List Word) : (s.accept packet offered).res = s.res := rfl
@[simp] theorem State.accept_avail (packet offered : List Word) : (s.accept packet offered).avail = s.avail := rfl
@[simp] theorem State.accept_stream (packet offered : List Word) : (s.accept packet offered).stream = s.stream := rfl
@[simp] theorem State.accept_fault (packet offered : List Word) : (s.accept packet offered).fault = s.fault := rfl
@[simp] theorem State.accept_rxPacket (packet offered : List Word) : (s.accept packet offered).rxPacket = packet := rfl
@[simp] theorem State.accept_response (packet offered : List Word) : (s.accept packet offered).response = s.response := rfl
@[simp] theorem State.accept_hostSends (packet offered : List Word) : (s.accept packet offered).hostSends = offered := rfl
@[simp] theorem State.accept_hostGot (packet offered : List Word) : (s.accept packet offered).hostGot = s.hostGot := rfl

@[simp] theorem State.readWord_nonce (w : Word) (rest : List Word) : (s.readWord w rest).nonce = s.nonce := rfl
@[simp] theorem State.readWord_ctr (w : Word) (rest : List Word) : (s.readWord w rest).ctr = s.ctr := rfl
@[simp] theorem State.readWord_wbuf (w : Word) (rest : List Word) : (s.readWord w rest).wbuf = s.wbuf := rfl
@[simp] theorem State.readWord_cur (w : Word) (rest : List Word) : (s.readWord w rest).cur = s.cur := rfl
@[simp] theorem State.readWord_res (w : Word) (rest : List Word) : (s.readWord w rest).res = s.res := rfl
@[simp] theorem State.readWord_avail (w : Word) (rest : List Word) : (s.readWord w rest).avail = s.avail := rfl
@[simp] theorem State.readWord_stream (w : Word) (rest : List Word) : (s.readWord w rest).stream = s.stream := rfl
@[simp] theorem State.readWord_fault (w : Word) (rest : List Word) : (s.readWord w rest).fault = s.fault := rfl
@[simp] theorem State.readWord_rxPacket (w : Word) (rest : List Word) : (s.readWord w rest).rxPacket = s.rxPacket := rfl
@[simp] theorem State.readWord_response (w : Word) (rest : List Word) : (s.readWord w rest).response = rest := rfl
@[simp] theorem State.readWord_hostSends (w : Word) (rest : List Word) : (s.readWord w rest).hostSends = s.hostSends := rfl
@[simp] theorem State.readWord_hostGot (w : Word) (rest : List Word) : (s.readWord w rest).hostGot = s.hostGot ++ [w] := rfl

@[simp] theorem State.takeWord_nonce (i : Fin 16) : (s.takeWord i).nonce = s.nonce := rfl
@[simp] theorem State.takeWord_ctr (i : Fin 16) : (s.takeWord i).ctr = s.ctr := rfl
@[simp] theorem State.takeWord_wbuf (i : Fin 16) : (s.takeWord i).wbuf = s.wbuf := rfl
@[simp] theorem State.takeWord_cur (i : Fin 16) : (s.takeWord i).cur = i.succ := rfl
@[simp] theorem State.takeWord_res (i : Fin 16) : (s.takeWord i).res = s.wbuf[i] := rfl
@[simp] theorem State.takeWord_avail (i : Fin 16) : (s.takeWord i).avail = 32 := rfl
@[simp] theorem State.takeWord_stream (i : Fin 16) : (s.takeWord i).stream = s.stream := rfl
@[simp] theorem State.takeWord_fault (i : Fin 16) : (s.takeWord i).fault = s.fault := rfl
@[simp] theorem State.takeWord_rxPacket (i : Fin 16) : (s.takeWord i).rxPacket = s.rxPacket := rfl
@[simp] theorem State.takeWord_response (i : Fin 16) : (s.takeWord i).response = s.response := rfl
@[simp] theorem State.takeWord_hostSends (i : Fin 16) : (s.takeWord i).hostSends = s.hostSends := rfl
@[simp] theorem State.takeWord_hostGot (i : Fin 16) : (s.takeWord i).hostGot = s.hostGot := rfl

@[simp] theorem State.generate_nonce (key : Key) : (s.generate key).nonce = s.nonce := rfl
@[simp] theorem State.generate_ctr (key : Key) : (s.generate key).ctr = s.ctr + 1 := rfl
@[simp] theorem State.generate_wbuf (key : Key) : (s.generate key).wbuf = coreBlock key s.nonce s.ctr := rfl
@[simp] theorem State.generate_cur (key : Key) : (s.generate key).cur = 0 := rfl
@[simp] theorem State.generate_res (key : Key) : (s.generate key).res = s.res := rfl
@[simp] theorem State.generate_avail (key : Key) : (s.generate key).avail = s.avail := rfl
@[simp] theorem State.generate_stream (key : Key) : (s.generate key).stream = s.stream := rfl
@[simp] theorem State.generate_fault (key : Key) : (s.generate key).fault = s.fault := rfl
@[simp] theorem State.generate_rxPacket (key : Key) : (s.generate key).rxPacket = s.rxPacket := rfl
@[simp] theorem State.generate_response (key : Key) : (s.generate key).response = s.response := rfl
@[simp] theorem State.generate_hostSends (key : Key) : (s.generate key).hostSends = s.hostSends := rfl
@[simp] theorem State.generate_hostGot (key : Key) : (s.generate key).hostGot = s.hostGot := rfl

@[simp] theorem State.consume_nonce (n : Nat) : (s.consume n).nonce = s.nonce := rfl
@[simp] theorem State.consume_ctr (n : Nat) : (s.consume n).ctr = s.ctr := rfl
@[simp] theorem State.consume_wbuf (n : Nat) : (s.consume n).wbuf = s.wbuf := rfl
@[simp] theorem State.consume_cur (n : Nat) : (s.consume n).cur = s.cur := rfl
@[simp] theorem State.consume_res (n : Nat) : (s.consume n).res = shr32 s.res n := rfl
@[simp] theorem State.consume_avail (n : Nat) : (s.consume n).avail = ⟨s.avail.val - n, by omega⟩ := rfl
@[simp] theorem State.consume_stream (n : Nat) : (s.consume n).stream = s.stream := rfl
@[simp] theorem State.consume_fault (n : Nat) : (s.consume n).fault = s.fault := rfl
@[simp] theorem State.consume_rxPacket (n : Nat) : (s.consume n).rxPacket = s.rxPacket := rfl
@[simp] theorem State.consume_response (n : Nat) : (s.consume n).response = s.response := rfl
@[simp] theorem State.consume_hostSends (n : Nat) : (s.consume n).hostSends = s.hostSends := rfl
@[simp] theorem State.consume_hostGot (n : Nat) : (s.consume n).hostGot = s.hostGot := rfl

@[simp] theorem State.startStream_nonce (nonce : DWord) : (s.startStream nonce).nonce = nonce := rfl
@[simp] theorem State.startStream_ctr (nonce : DWord) : (s.startStream nonce).ctr = 0 := rfl
@[simp] theorem State.startStream_wbuf (nonce : DWord) : (s.startStream nonce).wbuf = s.wbuf := rfl
@[simp] theorem State.startStream_cur (nonce : DWord) : (s.startStream nonce).cur = 16 := rfl
@[simp] theorem State.startStream_res (nonce : DWord) : (s.startStream nonce).res = 0 := rfl
@[simp] theorem State.startStream_avail (nonce : DWord) : (s.startStream nonce).avail = 0 := rfl
@[simp] theorem State.startStream_stream (nonce : DWord) : (s.startStream nonce).stream = true := rfl
@[simp] theorem State.startStream_fault (nonce : DWord) : (s.startStream nonce).fault = false := rfl
@[simp] theorem State.startStream_rxPacket (nonce : DWord) : (s.startStream nonce).rxPacket = s.rxPacket := rfl
@[simp] theorem State.startStream_response (nonce : DWord) : (s.startStream nonce).response = s.response := rfl
@[simp] theorem State.startStream_hostSends (nonce : DWord) : (s.startStream nonce).hostSends = s.hostSends := rfl
@[simp] theorem State.startStream_hostGot (nonce : DWord) : (s.startStream nonce).hostGot = s.hostGot := rfl

@[simp] theorem State.offer_nonce (w : Word) : (s.offer w).nonce = s.nonce := rfl
@[simp] theorem State.offer_ctr (w : Word) : (s.offer w).ctr = s.ctr := rfl
@[simp] theorem State.offer_wbuf (w : Word) : (s.offer w).wbuf = s.wbuf := rfl
@[simp] theorem State.offer_cur (w : Word) : (s.offer w).cur = s.cur := rfl
@[simp] theorem State.offer_res (w : Word) : (s.offer w).res = s.res := rfl
@[simp] theorem State.offer_avail (w : Word) : (s.offer w).avail = s.avail := rfl
@[simp] theorem State.offer_stream (w : Word) : (s.offer w).stream = s.stream := rfl
@[simp] theorem State.offer_fault (w : Word) : (s.offer w).fault = s.fault := rfl
@[simp] theorem State.offer_rxPacket (w : Word) : (s.offer w).rxPacket = s.rxPacket := rfl
@[simp] theorem State.offer_response (w : Word) : (s.offer w).response = s.response := rfl
@[simp] theorem State.offer_hostSends (w : Word) : (s.offer w).hostSends = s.hostSends ++ [w] := rfl
@[simp] theorem State.offer_hostGot (w : Word) : (s.offer w).hostGot = s.hostGot := rfl

@[simp] theorem State.resetSignal_nonce (wbuf : Block) : (s.resetSignal wbuf).nonce = 0 := rfl
@[simp] theorem State.resetSignal_ctr (wbuf : Block) : (s.resetSignal wbuf).ctr = 0 := rfl
@[simp] theorem State.resetSignal_wbuf (wbuf : Block) : (s.resetSignal wbuf).wbuf = wbuf := rfl
@[simp] theorem State.resetSignal_cur (wbuf : Block) : (s.resetSignal wbuf).cur = 16 := rfl
@[simp] theorem State.resetSignal_res (wbuf : Block) : (s.resetSignal wbuf).res = 0 := rfl
@[simp] theorem State.resetSignal_avail (wbuf : Block) : (s.resetSignal wbuf).avail = 0 := rfl
@[simp] theorem State.resetSignal_stream (wbuf : Block) : (s.resetSignal wbuf).stream = false := rfl
@[simp] theorem State.resetSignal_fault (wbuf : Block) : (s.resetSignal wbuf).fault = false := rfl
@[simp] theorem State.resetSignal_rxPacket (wbuf : Block) : (s.resetSignal wbuf).rxPacket = [] := rfl
@[simp] theorem State.resetSignal_response (wbuf : Block) : (s.resetSignal wbuf).response = [] := rfl
@[simp] theorem State.resetSignal_hostSends (wbuf : Block) : (s.resetSignal wbuf).hostSends = s.hostSends := rfl
@[simp] theorem State.resetSignal_hostGot (wbuf : Block) : (s.resetSignal wbuf).hostGot = s.hostGot := rfl

end Sys2Proof.Machine
end

