-- ==== Sys2Proof/Laws/Ops.lean ====
section
/-! SUPPORT. What each shared operation and each step can do, said once: later proofs cite these and do not unfold. -/

namespace Sys2Proof.Machine

/-- A command that answers at all answers with its state and its response on the port. -/
theorem deliver_eq_next {r : State × Response} {t : State} :
    deliver r = .next t ↔ r.1.putResponse r.2.words = t := by
  simp [deliver]

@[simp] theorem abort_fst (ope : BitVec 8) (rc : ResultCode) (s : State) : (abort ope rc s).1 = s := rfl
@[simp] theorem abort_snd (ope : BitVec 8) (rc : ResultCode) (s : State) : (abort ope rc s).2 = ⟨ope, rc, []⟩ := rfl
@[simp] theorem respondOk_fst (op : Op) (data : List Word) (s : State) : (respondOk op data s).1 = s := rfl
@[simp] theorem respondOk_snd (op : Op) (data : List Word) (s : State) :
    (respondOk op data s).2 = ⟨opCode op, .ok, data⟩ := rfl
@[simp] theorem exhaust_fst (s : State) : (exhaust s).1 = s.setFault := rfl
@[simp] theorem exhaust_snd (s : State) : (exhaust s).2 = ⟨opCode .bits, .exhausted, []⟩ := rfl
@[simp] theorem Response.words_eq (ope : BitVec 8) (rc : ResultCode) (data : List Word) :
    (Response.mk ope rc data).words = responseWord ope rc :: data := rfl

/-- Everything `refill` can do: take the next word, exhaust, or generate a block and take its word 0. -/
theorem refill_cases (key : Key) (s : State) :
    (∃ h : s.cur.val < 16, refill key s = some (s.takeWord ⟨s.cur.val, h⟩)) ∨
      (s.cur.val = 16 ∧ s.ctr = BitVec.allOnes 64 ∧ refill key s = none) ∨
      (s.cur.val = 16 ∧ s.ctr ≠ BitVec.allOnes 64 ∧
        refill key s = some ((s.generate key).takeWord 0)) := by
  by_cases h : s.cur.val < 16
  · exact .inl ⟨h, by simp [refill, h]⟩
  · have hcur : s.cur.val = 16 := by omega
    by_cases hctr : s.ctr = BitVec.allOnes 64
    · exact .inr (.inl ⟨hcur, hctr, by rw [refill, dif_neg h, if_pos hctr]⟩)
    · exact .inr (.inr ⟨hcur, hctr, by rw [refill, dif_neg h, if_neg hctr]⟩)

/-- Every refill leaves a full reservoir. -/
theorem refill_avail {key : Key} {s t : State} (h : refill key s = some t) : t.avail = 32 := by
  obtain ⟨_, e⟩ | ⟨_, _, e⟩ | ⟨_, _, e⟩ := refill_cases key s <;> rw [e] at h <;> cases h <;> rfl

/-- The registers and port contents that no draw writes. -/
structure DrawFrame (s t : State) : Prop where
  nonce : t.nonce = s.nonce
  stream : t.stream = s.stream
  fault : t.fault = s.fault
  rxPacket : t.rxPacket = s.rxPacket
  response : t.response = s.response
  hostSends : t.hostSends = s.hostSends
  hostGot : t.hostGot = s.hostGot

theorem refill_frame {key : Key} {s t : State} (h : refill key s = some t) : DrawFrame s t := by
  obtain ⟨_, e⟩ | ⟨_, _, e⟩ | ⟨_, _, e⟩ := refill_cases key s <;> rw [e] at h <;> cases h <;>
    exact ⟨rfl, rfl, rfl, rfl, rfl, rfl, rfl⟩

/-- One turn of the loop of BitsCore. -/
theorem bitsLoop_turn {key : Key} {fuel n : Nat} {r : DWord} {s t : State}
    (hn : s.avail.val ≤ n) (h : refill key s = some t) :
    bitsLoop key (fuel + 1) r n s =
      bitsLoop key fuel (appendBits r s.avail.val s.res) (n - s.avail.val) t := by
  simp [bitsLoop, hn, h]

/-- The loop ends when fewer bits are wanted than there are. -/
theorem bitsLoop_done {key : Key} {fuel n : Nat} {r : DWord} {s : State} (hn : n < s.avail.val) :
    bitsLoop key fuel r n s = some (bitsFinish r n s) := by
  cases fuel <;> simp [bitsLoop, Nat.not_le.mpr hn]

/-- The loop stops without a result when a refill does. -/
theorem bitsLoop_none {key : Key} {fuel n : Nat} {r : DWord} {s : State}
    (hn : s.avail.val ≤ n) (h : refill key s = none) : bitsLoop key (fuel + 1) r n s = none := by
  simp [bitsLoop, hn, h]

/-- A draw writes only WBUF, CTR, CUR, RES and AVAIL. -/
theorem bitsLoop_frame {key : Key} (fuel : Nat) : ∀ {r q : DWord} {n : Nat} {s t : State},
    bitsLoop key fuel r n s = some (q, t) → DrawFrame s t := by
  induction fuel with
  | zero =>
    intro r q n s t h
    cases h
    exact ⟨rfl, rfl, rfl, rfl, rfl, rfl, rfl⟩
  | succ fuel ih =>
    intro r q n s t h
    by_cases hn : s.avail.val ≤ n
    · cases hr : refill key s with
      | none => simp [bitsLoop_none hn hr] at h
      | some u =>
        rw [bitsLoop_turn hn hr] at h
        have f := refill_frame hr
        have g := ih h
        exact ⟨g.nonce.trans f.nonce, g.stream.trans f.stream, g.fault.trans f.fault,
          g.rxPacket.trans f.rxPacket, g.response.trans f.response,
          g.hostSends.trans f.hostSends, g.hostGot.trans f.hostGot⟩
    · rw [bitsLoop_done (by omega)] at h
      cases h
      exact ⟨rfl, rfl, rfl, rfl, rfl, rfl, rfl⟩

/-- Everything BITS can do: one of the four errors, or a draw. -/
theorem bitsCmd_cases (key : Key) (n : Nat) (s : State) :
    (64 < n ∧ bitsCmd key n s = abort (opCode .bits) .usage s) ∨
      (n ≤ 64 ∧ s.stream = false ∧ bitsCmd key n s = abort (opCode .bits) .noStream s) ∨
      (n ≤ 64 ∧ s.stream = true ∧ s.fault = true ∧
        bitsCmd key n s = abort (opCode .bits) .faulted s) ∨
      (n ≤ 64 ∧ s.stream = true ∧ s.fault = false ∧ bitsCore key n s = none ∧
        bitsCmd key n s = exhaust s) ∨
      (n ≤ 64 ∧ s.stream = true ∧ s.fault = false ∧ ∃ r t, bitsCore key n s = some (r, t) ∧
        bitsCmd key n s = respondOk .bits (split64 r) t) := by
  by_cases hn : 64 < n
  · exact .inl ⟨hn, by simp [bitsCmd, hn]⟩
  · have hn' : n ≤ 64 := by omega
    cases hs : s.stream with
    | false => exact .inr (.inl ⟨hn', rfl, by simp [bitsCmd, hn, hs]⟩)
    | true =>
      cases hf : s.fault with
      | true => exact .inr (.inr (.inl ⟨hn', rfl, rfl, by simp [bitsCmd, hn, hs, hf]⟩))
      | false =>
        cases hb : bitsCore key n s with
        | none =>
          exact .inr (.inr (.inr (.inl ⟨hn', rfl, rfl, rfl, by simp [bitsCmd, hn, hs, hf, hb]⟩)))
        | some p =>
          obtain ⟨r, t⟩ := p
          exact .inr (.inr (.inr (.inr
            ⟨hn', rfl, rfl, r, t, rfl, by simp [bitsCmd, hn, hs, hf, hb]⟩)))

/-- Everything a step can do: read a response word, run a command, answer an illegal word, keep a word of a packet that is not whole, stay idle, or hang. -/
theorem step_cases (s : State) :
    (∃ w rest, s.response = w :: rest ∧ step s = .next (s.readWord w rest)) ∨
      (s.response = [] ∧ ∃ w offered, s.hostSends = w :: offered ∧
        ((∃ i rest, decode (s.rxPacket ++ [w]) = .complete i rest ∧
            step s = exec i (s.accept rest offered)) ∨
          (∃ cw why rest, decode (s.rxPacket ++ [w]) = .illegal cw why rest ∧
            step s = execIllegal cw (s.accept rest offered)) ∨
          (decode (s.rxPacket ++ [w]) = .incomplete ∧
            step s = .next (s.accept (s.rxPacket ++ [w]) offered)))) ∨
      (s.response = [] ∧ s.hostSends = [] ∧ s.rxPacket = [] ∧ step s = .next s) ∨
      (s.response = [] ∧ s.hostSends = [] ∧ s.rxPacket ≠ [] ∧
        step s = .refused .hostStoppedMidPacket) := by
  cases hr : s.response with
  | cons w rest => exact .inl ⟨w, rest, rfl, by simp [step, hr]⟩
  | nil =>
    cases hs : s.hostSends with
    | nil =>
      by_cases hp : s.rxPacket = []
      · exact .inr (.inr (.inl ⟨rfl, rfl, hp, by simp [step, hr, hs, hp]⟩))
      · exact .inr (.inr (.inr ⟨rfl, rfl, hp, by simp [step, hr, hs, hp]⟩))
    | cons w offered =>
      refine .inr (.inl ⟨rfl, w, offered, rfl, ?_⟩)
      cases hd : decode (s.rxPacket ++ [w]) with
      | complete i rest => exact .inl ⟨i, rest, rfl, by simp [step, hr, hs, receive, hd]⟩
      | illegal cw why rest =>
        exact .inr (.inl ⟨cw, why, rest, rfl, by simp [step, hr, hs, receive, hd]⟩)
      | incomplete => exact .inr (.inr ⟨rfl, by simp [step, hr, hs, receive, hd]⟩)

/-- Everything a packet of one more word can decode to, from a classified command word. -/
theorem decode_cons (cw : Word) (ws : List Word) :
    (∃ why, classify cw = .error why ∧ decode (cw :: ws) = .illegal cw why ws) ∨
      (∃ op, classify cw = .ok op ∧ decode (cw :: ws) = readOperands op cw ws) := by
  cases h : classify cw with
  | error why => exact .inl ⟨why, rfl, by simp [decode, h]⟩
  | ok op => exact .inr ⟨op, rfl, by simp [decode, h]⟩

end Sys2Proof.Machine
end

