-- ==== Sys2Proof/Laws/PerInstr.lean ====
section
/-! SUPPORT. Facts about every command as syntax, one lemma per constructor. -/

namespace Sys2Proof.Laws

/-- The encoding of a command has the length that its command word announces (R60). -/
def PacketLength.Statement (i : Instr) : Prop :=
  i.wf = true → ∃ cw ws, encode i = cw :: ws ∧ packetLength cw = 1 + ws.length

theorem PacketLength.init (nonce : DWord) : PacketLength.Statement (.init nonce) :=
  fun _ => ⟨_, _, rfl, show packetLength (commandWord .init 0) = 3 by decide⟩

theorem PacketLength.bits (n : Nat) : PacketLength.Statement (.bits n) := by
  intro h
  have hn : n < 128 := by simpa [Instr.wf] using h
  have key : ∀ k : Fin 128, packetLength (commandWord .bits (BitVec.ofNat 7 k.val)) = 1 := by decide
  exact ⟨_, _, rfl, by simpa using key ⟨n, hn⟩⟩

theorem PacketLength.block (nonce counter : DWord) : PacketLength.Statement (.block nonce counter) :=
  fun _ => ⟨_, _, rfl, show packetLength (commandWord .block 0) = 5 by decide⟩

theorem PacketLength.status : PacketLength.Statement .status :=
  fun _ => ⟨_, _, rfl, by decide⟩

end Sys2Proof.Laws
end

