-- ==== Sys2Proof/Laws/Reach.lean ====
section
/-! SUPPORT. Runs: steps compose, and stay among the reachable states. -/

namespace Sys2Proof.Machine

theorem steps_add {a : Nat} (b : Nat) : ∀ {s t : State}, steps a s = .next t →
    steps (a + b) s = steps b t := by
  induction a with
  | zero =>
    intro s t h
    cases h
    rw [Nat.zero_add]
  | succ a ih =>
    intro s t h
    rw [Nat.add_right_comm]
    simp only [steps] at h ⊢
    split at h
    · exact ih h
    · cases h
    · cases h

theorem Reachable.steps {k : Nat} : ∀ {s t : State}, Reachable s → steps k s = .next t → Reachable t := by
  induction k with
  | zero =>
    intro s t hs h
    cases h
    exact hs
  | succ k ih =>
    intro s t hs h
    simp only [Machine.steps] at h
    split at h
    · rename_i u hu
      exact ih (hs.step hu) h
    · cases h
    · cases h

/-- Words offered one after the other. -/
theorem Reachable.offers (ws : List Word) : ∀ {s : State}, Reachable s →
    Reachable (ws.foldl State.offer s) := by
  induction ws with
  | nil => exact fun h => h
  | cons w ws ih => exact fun h => ih (h.offer w)

end Sys2Proof.Machine
end

