-- ==== Sys2Proof/Laws/Reservoir.lean ====
section
/-! SUPPORT. What a draw does: the number of its refills, the value it appends, the registers it leaves. -/

namespace Sys2Proof.Machine

/-- One turn of the loop is one refill (R117). -/
theorem refillCount_of_le (n a : Nat) (h : a ≤ n) :
    refillCount n a = 1 + refillCount (n - a) 32 := by
  unfold refillCount
  rw [if_neg (by omega)]
  split <;> omega

/-- A draw of at most 64 bits refills at most three times (R117). -/
theorem refillCount_le_three (n a : Nat) (h : n ≤ 64) : refillCount n a ≤ 3 := by
  unfold refillCount
  split <;> omega

theorem refillCount_of_lt (n a : Nat) (h : n < a) : refillCount n a = 0 := by
  simp [refillCount, h]

theorem lt_of_refillCount_eq_zero (n a : Nat) (h : refillCount n a ≤ 0) : n < a := by
  unfold refillCount at h
  split at h <;> omega

/-- `appendBits` is shift and add as long as the result fits 64 bits (R112). -/
theorem appendBits_toNat (r : DWord) (k m : Nat) (res : Word) (hr : r.toNat < 2 ^ m)
    (h : m + k ≤ 64) (hk : k ≤ 32) :
    (appendBits r k res).toNat = r.toNat * 2 ^ k + res.toNat % 2 ^ k ∧
      (appendBits r k res).toNat < 2 ^ (m + k) := by
  have hmask : (mask k).toNat = 2 ^ k - 1 := by
    simp [mask]
    have : 2 ^ k ≤ 2 ^ 32 := Nat.pow_le_pow_right (by omega) hk
    omega
  have hand : (res &&& mask k).toNat = res.toNat % 2 ^ k := by
    rw [BitVec.toNat_and, hmask, Nat.and_two_pow_sub_one_eq_mod]
  have hlow : res.toNat % 2 ^ k < 2 ^ k := Nat.mod_lt _ (Nat.two_pow_pos k)
  have hext : (zext64 (res &&& mask k)).toNat = res.toNat % 2 ^ k := by
    have := (res &&& mask k).isLt
    simp only [zext64, BitVec.toNat_setWidth]
    rw [hand] at this ⊢
    apply Nat.mod_eq_of_lt
    omega
  have hbound : r.toNat * 2 ^ k < 2 ^ (m + k) := by
    rw [Nat.pow_add]
    exact Nat.mul_lt_mul_of_pos_right hr (Nat.two_pow_pos k)
  have hfits : 2 ^ (m + k) ≤ 2 ^ 64 := Nat.pow_le_pow_right (by omega) h
  have hshl : (shl64 r k).toNat = r.toNat * 2 ^ k := by
    simp only [shl64, BitVec.toNat_shiftLeft, Nat.shiftLeft_eq]
    apply Nat.mod_eq_of_lt
    omega
  have value : (appendBits r k res).toNat = r.toNat * 2 ^ k + res.toNat % 2 ^ k := by
    simp only [appendBits, BitVec.toNat_or, hext, hshl]
    rw [Nat.mul_comm, Nat.two_pow_add_eq_or_of_lt hlow]
  refine ⟨value, ?_⟩
  rw [value, Nat.pow_add]
  calc r.toNat * 2 ^ k + res.toNat % 2 ^ k < r.toNat * 2 ^ k + 2 ^ k := by omega
    _ = (r.toNat + 1) * 2 ^ k := by ring
    _ ≤ _ := Nat.mul_le_mul_right _ hr

/-- A refill takes the first upcoming word, and the words after it are upcoming in the same order (R101, R102). -/
theorem refill_upcomingWord {key : Key} {s t : State} (h : refill key s = some t) :
    t.res = upcomingWord key s 0 ∧
      ∀ j, j < 15 → upcomingWord key t j = upcomingWord key s (j + 1) := by
  obtain ⟨hc, e⟩ | ⟨_, _, e⟩ | ⟨hc, _, e⟩ := refill_cases key s
  · cases e.symm.trans h
    refine ⟨by simp [upcomingWord, hc], fun j _ => ?_⟩
    have hj : s.cur.val + 1 + j = s.cur.val + (j + 1) := by omega
    simp [upcomingWord, hj]
  · cases e.symm.trans h
  · cases e.symm.trans h
    refine ⟨by simp [upcomingWord, hc], fun j hj => ?_⟩
    have h16 : (16 + (j + 1)) % 16 = 1 + j := by omega
    have hlt : 1 + j < 16 := by omega
    simp [upcomingWord, hc, hlt, h16]

/-- One turn of the loop on the value of a draw: the available bits, then the value of the rest after the refill (R105). -/
theorem drawnValue_turn {key : Key} {n : Nat} {s t : State} (hn : s.avail.val ≤ n) (h64 : n ≤ 64)
    (h : refill key s = some t) :
    drawnValue key n s =
      s.res.toNat % 2 ^ s.avail.val * 2 ^ (n - s.avail.val) + drawnValue key (n - s.avail.val) t := by
  have ha := refill_avail h
  obtain ⟨hres, hup⟩ := refill_upcomingWord h
  have hw : (upcomingWord key s 0).toNat % 2 ^ 32 = (upcomingWord key s 0).toNat :=
    Nat.mod_eq_of_lt (upcomingWord key s 0).isLt
  unfold drawnValue
  rw [if_neg (by omega)]
  have hm64 : n - s.avail.val ≤ 64 := by omega
  generalize n - s.avail.val = m at hm64 ⊢
  simp only [ha, hres]
  by_cases hm : m < 32
  · simp [hm, Nat.div_eq_of_lt hm, Nat.mod_eq_of_lt hm]
  obtain ⟨k, rfl⟩ : ∃ k, m = 32 + k := ⟨m - 32, by omega⟩
  have hdiv : (32 + k) / 32 = k / 32 + 1 := by omega
  have hmod : (32 + k) % 32 = k % 32 := by omega
  have hsum : ((List.range (k / 32)).map fun j =>
        (upcomingWord key s (j + 1)).toNat * 2 ^ (32 + k - 32 * (j + 1 + 1))).sum =
      ((List.range (k / 32)).map fun j =>
        (upcomingWord key t j).toNat * 2 ^ (k - 32 * (j + 1))).sum := by
    congr 1
    refine List.map_congr_left fun j hj => ?_
    have hj := List.mem_range.1 hj
    rw [hup j (by omega)]
    congr 2
    omega
  have hlast := hup (k / 32) (by omega)
  have hsub : 32 + k - 32 = k := by omega
  have h32 : ((32 : Fin 33) : Nat) = 32 := rfl
  rw [h32, if_neg (by omega), hdiv, hmod, hsub, List.range_succ_eq_map, List.map_cons, List.sum_cons,
    List.map_map]
  simp only [Function.comp_def, Nat.succ_eq_add_one, hsum, hlast, hw]
  simp only [Nat.zero_add, Nat.mul_one, hsub]
  omega

/-- The registers after a draw of `n` bits that does not exhaust the stream. -/
structure DrawRegisters (key : Key) (n : Nat) (s t : State) : Prop where
  /-- More words taken than WBUF had left: one block generated. -/
  generated : 16 - s.cur.val < refillCount n s.avail.val →
    t.ctr = s.ctr + 1 ∧ t.wbuf = coreBlock key s.nonce s.ctr ∧
      t.cur.val + 16 = s.cur.val + refillCount n s.avail.val
  kept : refillCount n s.avail.val ≤ 16 - s.cur.val →
    t.ctr = s.ctr ∧ t.wbuf = s.wbuf ∧ t.cur.val = s.cur.val + refillCount n s.avail.val
  /-- The request fits the reservoir. -/
  within : n < s.avail.val → t.avail.val = s.avail.val - n ∧ t.res = s.res >>> n
  /-- The request goes past the reservoir. -/
  past : s.avail.val ≤ n → t.avail.val = 32 - (n - s.avail.val) % 32 ∧ 1 ≤ t.cur.val ∧
    t.res = (t.wbuf[t.cur.val - 1]'(by omega)) >>> ((n - s.avail.val) % 32)

/-- A draw within the reservoir leaves the registers of `bitsFinish`. -/
theorem consume_registers (key : Key) {n : Nat} {s : State} (hn : n < s.avail.val) :
    DrawRegisters key n s (s.consume n) := by
  have h0 := refillCount_of_lt n s.avail.val hn
  refine ⟨by omega, fun _ => ?_, fun _ => ?_, by omega⟩
  · simp [h0]
  · simp [shr32]

/-- The registers of a draw whose first turn takes the next word of WBUF. -/
theorem registers_after_take (key : Key) {n : Nat} {s t : State} (hn : s.avail.val ≤ n)
    (hc : s.cur.val < 16)
    (p : DrawRegisters key (n - s.avail.val) (s.takeWord ⟨s.cur.val, hc⟩) t) :
    DrawRegisters key n s t := by
  have hk := refillCount_of_le n s.avail.val hn
  have p1 := p.generated
  have p2 := p.kept
  have p3 := p.within
  have p4 := p.past
  simp at p1 p2 p3 p4
  refine ⟨fun hg => ?_, fun hg => ?_, by omega, fun _ => ?_⟩
  · obtain ⟨a, b, c⟩ := p1 (by omega)
    exact ⟨a, b, by omega⟩
  · obtain ⟨a, b, c⟩ := p2 (by omega)
    exact ⟨a, b, by omega⟩
  · by_cases hlt : n - s.avail.val < 32
    · obtain ⟨a, b⟩ := p3 hlt
      have h0 := refillCount_of_lt (n - s.avail.val) 32 hlt
      obtain ⟨c, d, f⟩ := p2 (by omega)
      refine ⟨by omega, by omega, ?_⟩
      have e : t.cur.val - 1 = s.cur.val := by omega
      rw [b, Nat.mod_eq_of_lt hlt]
      simp [d, e]
    · obtain ⟨a, b, c⟩ := p4 (by omega)
      exact ⟨by omega, b, by rw [c]; congr 1; omega⟩

/-- The registers of a draw whose first turn generates a block. -/
theorem registers_after_generate (key : Key) {n : Nat} {s t : State} (hn : s.avail.val ≤ n)
    (hc : s.cur.val = 16) (hk16 : refillCount n s.avail.val ≤ 16)
    (p : DrawRegisters key (n - s.avail.val) ((s.generate key).takeWord 0) t) :
    DrawRegisters key n s t := by
  have hk := refillCount_of_le n s.avail.val hn
  have p1 := p.generated
  have p2 := p.kept
  have p3 := p.within
  have p4 := p.past
  simp at p1 p2 p3 p4
  refine ⟨fun hg => ?_, fun hg => by omega, by omega, fun _ => ?_⟩
  · obtain ⟨a, b, c⟩ := p2 (by omega)
    exact ⟨a, b, by omega⟩
  · by_cases hlt : n - s.avail.val < 32
    · obtain ⟨a, b⟩ := p3 hlt
      have h0 := refillCount_of_lt (n - s.avail.val) 32 hlt
      obtain ⟨c, d, f⟩ := p2 (by omega)
      refine ⟨by omega, by omega, ?_⟩
      have e : t.cur.val - 1 = 0 := by omega
      rw [b, Nat.mod_eq_of_lt hlt]
      simp [d, e]
    · obtain ⟨a, b, c⟩ := p4 (by omega)
      exact ⟨by omega, b, by rw [c]; congr 1; omega⟩

/-- Everything the loop of BitsCore can do, when it has turns enough: exhaust, or leave `DrawRegisters`. -/
theorem bitsLoop_draws (key : Key) (fuel : Nat) : ∀ (r : DWord) (n : Nat) (s : State),
    refillCount n s.avail.val ≤ fuel → refillCount n s.avail.val ≤ 16 →
      (exhausts n s = true → bitsLoop key fuel r n s = none) ∧
      (exhausts n s = false →
        ∃ q t, bitsLoop key fuel r n s = some (q, t) ∧ DrawRegisters key n s t) := by
  have within : ∀ (fuel : Nat) (r : DWord) (n : Nat) (s : State), n < s.avail.val →
      (exhausts n s = true → bitsLoop key fuel r n s = none) ∧
      (exhausts n s = false →
        ∃ q t, bitsLoop key fuel r n s = some (q, t) ∧ DrawRegisters key n s t) := by
    intro fuel r n s hn
    refine ⟨fun h => ?_, fun _ => ⟨_, _, bitsLoop_done hn, consume_registers key hn⟩⟩
    simp [exhausts, refillCount_of_lt n s.avail.val hn] at h
  induction fuel with
  | zero => intro r n s h _; exact within 0 r n s (lt_of_refillCount_eq_zero _ _ h)
  | succ fuel ih =>
    intro r n s h h16
    by_cases hlt : n < s.avail.val
    · exact within (fuel + 1) r n s hlt
    have hn : s.avail.val ≤ n := by omega
    have hk := refillCount_of_le n s.avail.val hn
    obtain ⟨hc, e⟩ | ⟨hc, hm, e⟩ | ⟨hc, hm, e⟩ := refill_cases key s
    · rw [bitsLoop_turn hn e]
      obtain ⟨i1, i2⟩ := ih (appendBits r s.avail.val s.res) (n - s.avail.val)
        (s.takeWord ⟨s.cur.val, hc⟩) (by simp; omega) (by simp; omega)
      have hex : exhausts (n - s.avail.val) (s.takeWord ⟨s.cur.val, hc⟩) = exhausts n s := by
        have hiff : (15 - s.cur.val < refillCount (n - s.avail.val) 32) ↔
            (16 - s.cur.val < refillCount n s.avail.val) := by omega
        simp [exhausts, hiff]
      rw [hex] at i1 i2
      refine ⟨i1, fun hx => ?_⟩
      obtain ⟨q, t, e', p⟩ := i2 hx
      exact ⟨q, t, e', registers_after_take key hn hc p⟩
    · rw [bitsLoop_none hn e]
      refine ⟨fun _ => rfl, fun hx => ?_⟩
      simp [exhausts, hm] at hx
      omega
    · rw [bitsLoop_turn hn e]
      obtain ⟨i1, i2⟩ := ih (appendBits r s.avail.val s.res) (n - s.avail.val)
        ((s.generate key).takeWord 0) (by simp; omega) (by simp; omega)
      have hex : exhausts (n - s.avail.val) ((s.generate key).takeWord 0) = exhausts n s := by
        have h15 : refillCount (n - s.avail.val) 32 ≤ 15 := by omega
        unfold exhausts
        rw [decide_eq_decide]
        constructor
        · rintro ⟨_, h2⟩
          simp at h2
          omega
        · rintro ⟨h1, _⟩
          exact absurd h1 hm
      rw [hex] at i1 i2
      refine ⟨i1, fun hx => ?_⟩
      obtain ⟨q, t, e', p⟩ := i2 hx
      exact ⟨q, t, e', registers_after_generate key hn hc h16 p⟩

end Sys2Proof.Machine
end

