-- ==== Sys2Proof/Tests/Slice0.lean ====
section
/-! SUPPORT. Small tests, their expected results from spec/95_test_vectors.md and the rules, and a witness for the hypotheses of each statement. -/

namespace Sys2Proof.Tests

open Sys2Proof.Machine

/- The helpers: the key RK of spec/95_test_vectors.md, a fresh stream, and a last block of words. -/

def rk : Key :=
  #v[0x03020100, 0x07060504, 0x0b0a0908, 0x0f0e0d0c, 0x13121110, 0x17161514, 0x1b1a1918, 0x1f1e1d1c]

/-- INIT 0 after reset: a Fresh stream. -/
def freshStream : State := State.reset.startStream 0

/-- A stream that stands before its last block with the word 0xc5b7b530 in RES (V-EXH-1). -/
def lastBlock : State :=
  { freshStream with ctr := BitVec.allOnes 64, cur := 16, avail := 32, res := 0xc5b7b530 }

/-- The Running state after BITS 0 on a fresh stream (R108), under the build's key. -/
def runningStream : State :=
  { freshStream with
    ctr := 1, cur := 1, avail := 32
    wbuf := coreBlock Config.key 0 0
    res := (coreBlock Config.key 0 0)[0] }

/- Well-formedness (R54, R61). -/

theorem test_bits_127_is_well_formed : (Instr.bits 127).wf = true := by decide
theorem test_bits_128_is_ill_formed : (Instr.bits 128).wf = false := by decide

/- Decoding and encoding, the words written out from R51 to R53 and V-ERR-4 to V-ERR-8. -/

theorem test_decode_init :
    decode [0b00000001000000000000000000000000, 0x00000727, 0x80000000, 0x04000000] =
      .complete (.init 0x8000000000000727) [0x04000000] := by decide
theorem test_decode_bits :
    decode [0b00000010000000000000000001000001] = .complete (.bits 65) [] := by decide
theorem test_decode_block :
    decode [0b00000011000000000000000000000000, 0x4a000000, 0x00000000, 0x00000001, 0x09000000] =
      .complete (.block 0x000000004a000000 0x0900000000000001) [] := by decide
theorem test_decode_status :
    decode [0b00000100000000000000000000000000] = .complete .status [] := by decide
theorem test_reserved_op : decode [0x05000000] = .illegal 0x05000000 .reservedOp [] := by decide
theorem test_zero_word : decode [0x00000000, 1] = .illegal 0 .reservedOp [1] := by decide
theorem test_init_with_count :
    decode [0x01000001, 0, 0] = .illegal 0x01000001 .strayCount [0, 0] := by decide
theorem test_status_with_rsv : decode [0x04000080] = .illegal 0x04000080 .reservedBits [] := by decide
theorem test_bits_with_rsv : decode [0x02800000] = .illegal 0x02800000 .reservedBits [] := by decide
theorem test_missing_operands : decode [0x03000000, 0, 0, 0] = .incomplete := by decide
theorem test_encode_block :
    encode (.block 0x4a000000 0x0900000000000001) =
      [0x03000000, 0x4a000000, 0x00000000, 0x00000001, 0x09000000] := by decide
theorem test_encode_bits : encode (.bits 64) = [0x02000040] := by decide
theorem test_table_word : decodeTableWord 32 0x02000040 = some (.bits 64) := by decide

/- The Core: V-QR-1, V-QR-6 and V-CORE-2. -/

theorem test_quarter_round :
    quarter 0x11111111 0x01020304 0x9b8d6f43 0x01234567 =
      (0xea2a92f4, 0xcb1cf8ce, 0x4581472e, 0x5881c4bb) := by decide
theorem test_quarter_round_carries :
    quarter 0xffffffff 0xffffffff 0xffffffff 0xffffffff =
      (0xf0000ffd, 0x88790878, 0x0110fdef, 0x010ffdf0) := by decide
theorem test_column_round :
    (columnRound (initialBlock rk 0x4a000000 0x0900000000000001)).toList =
      [0xabbaa25c, 0x1efa51ea, 0x7354fbdf, 0x83d2dc69, 0x3a465196, 0x1c7e64f6, 0xb12fb628,
       0xf05b6976, 0x6b3ca454, 0x08eb14b1, 0xbf8a9ac9, 0xe444df3b, 0xdec62ed2, 0x8862cc77,
       0x6e35b345, 0x52a647f1] := by decide +kernel
theorem test_block_v_core_2 :
    (blockCmd rk 0x4a000000 0x0900000000000001 State.reset).2.words =
      [0x03000000, 0xe4e7f110, 0x15593bd1, 0x1fdd0f50, 0xc47120a3, 0xc7f4d1c7, 0x0368c033,
       0x9aaa2204, 0x4e6cd4c3, 0x466482d2, 0x09aa9f07, 0x05d7c214, 0xa2028bd9, 0xd19c12b5,
       0xb94e16de, 0xe883d0cb, 0x4e3c50a2] := by decide +kernel

/- INIT: V-ERR-12, and WBUF kept (R107). -/

theorem test_init_clears_fault :
    exec (.init 0x727) { lastBlock with fault := true } =
      .next { lastBlock with
        nonce := 0x727, ctr := 0, avail := 0, res := 0
        response := [0x01000000] } := by rfl

/- BITS: V-RES-13's fifth draw across a word boundary, from its state and the words of V-CORE-5; V-RES-3, as the command and in closed form; V-EXH-2. -/

theorem test_bits_across_words :
    (bitsCmd rk 7 { freshStream with
      ctr := 1, cur := 1, avail := 4, res := 7
      wbuf := freshStream.wbuf.set 1 0x6a19c5d9 }).2.words = [0x02000000, 0x39, 0] := by
  decide +kernel
theorem test_bits_64_fresh : (bitsCmd rk 64 freshStream).2.words = [0x02000000, 0x6a19c5d9, 0x7d2bfd39] := by
  decide +kernel
theorem test_drawn_value_64_fresh : drawnValue rk 64 freshStream = 0x7d2bfd396a19c5d9 := by
  decide +kernel
theorem test_bits_exhausted :
    exec (.bits 32) lastBlock = .next { lastBlock with fault := true, response := [0x02000005] } := by
  rfl

/- STATUS: V-ST-7. -/

theorem test_status_after_exhaustion :
    exec .status { lastBlock with fault := true } = .next { lastBlock with
      fault := true
      response := [0x04000000, 0x00102003, 0xffffffff, 0xffffffff] } := by rfl

/- Steps: an illegal word (V-ERR-6), a whole run of BITS 5 after reset and its reading (V-ERR-1), a table word. -/

theorem test_illegal_word_step :
    step { State.reset with hostSends := [0x01000001, 0, 0] } =
      .next { State.reset with hostSends := [0, 0], response := [0x01000001] } := by rfl
theorem test_bits_before_init :
    steps 2 { State.reset with hostSends := [0x02000005] } =
      .next { State.reset with hostGot := [0x02000003] } := by rfl
theorem test_fetch_word :
    step (State.reset.withFetchWord 32 0x01000000) =
      .next { State.reset with stream := true, response := [0x01000000] } := by rfl

/- Responses read back by a host (R60, R58). -/

theorem test_parse_status :
    Response.parse [0x04000000, 0x00100000, 0, 0, 0x02000002] =
      some (⟨0x04, .ok, [0x00100000, 0, 0]⟩, [0x02000002]) := by decide
theorem test_parse_refuses_unused_code : Response.parse [0x02000006] = none := by decide

/- The host's functions: V-ID-3, V-ID-10, V-ID-11, the lines of P2 and P4, R158. -/

theorem test_nonce_of_label : nonceOf [0x41, 0x42] 0x12345678 = .ok 0x12345e78 := by decide
theorem test_nonce_label_too_long :
    nonceOf [0x41, 0x42, 0x43, 0x44, 0x45] 0 = .error .labelTooLong := by decide
theorem test_nonce_zero_byte : nonceOf [0x41, 0x00] 0 = .error .zeroByte := by decide
theorem test_assemble :
    assemble ["INIT   0x727   ; label", "bits 31", "BLOCK 0x4a000000, 0x0900000000000001",
        ".word 0x05000000", "STATUS"] =
      some [0x01000000, 0x00000727, 0, 0x0200001f, 0x03000000, 0x4a000000, 0, 0x00000001,
        0x09000000, 0x05000000, 0x04000000] := by decide
theorem test_assembler_refuses : assemble ["BITS 128"] = none := by decide
theorem test_wide_word_refused : State.reset.offerNat (2 ^ 32) = .refused .wordTooWide := by rfl

/- Witnesses: for each statement with hypotheses, a state and operands that meet them all. -/

theorem witness_DecodeOfEncodeIsTheCommand :
    (Instr.bits 127).wf = true ∧ (Instr.block 1 2).wf = true := by decide

theorem witness_DecodedWordsAreTheEncoding :
    decode [0x0200007f, 0x01000000] = .complete (.bits 127) [0x01000000] := by decide

/-- A legal word at the edge of the count, and two words that miss legality by one bit. -/
theorem witness_IllegalWordsAreAnsweredAlone :
    classify 0x0200007f = .ok .bits ∧ classify 0x02000080 = .error .reservedBits ∧
      classify 0x04000001 = .error .strayCount ∧
      ∃ s : State, s.response = [] ∧ s.rxPacket = [] ∧ s.hostSends = [0x02000080] :=
  ⟨by decide, by decide, by decide, { State.reset with hostSends := [0x02000080] }, rfl, rfl, rfl⟩

theorem witness_AssemblerBoundsTheCount :
    parseNumber "127".toList = some 127 ∧ parseNumber "0x80".toList = some 128 := by decide

/-- The last operand word of an INIT. -/
def lastOperand : State := { State.reset with rxPacket := [0x01000000, 0x727], hostSends := [0] }

theorem witness_StepRunsTheDecodedCommand :
    lastOperand.response = [] ∧ lastOperand.hostSends = [0] ∧
      decode (lastOperand.rxPacket ++ [0]) = .complete (.init 0x727) [] := by decide

theorem witness_StepKeepsAPartOfAPacket :
    ∃ s : State, s.response = [] ∧ s.hostSends = [0x727, 0] ∧
      decode (s.rxPacket ++ [0x727]) = .incomplete :=
  ⟨{ State.reset with rxPacket := [0x01000000], hostSends := [0x727, 0] }, rfl, rfl, by decide⟩

theorem witness_PortHoldsWordsUntilTheResponseIsRead :
    2 ≤ ({ State.reset with response := [0x02000000, 1, 0], hostSends := [0x04000000] } : State).response.length := by
  decide

theorem witness_PacketRunsAndIsReadBack :
    (Instr.init 0x727).wf = true ∧
      ∃ s : State, s.response = [] ∧ s.rxPacket = [] ∧
        s.hostSends = encode (.init 0x727) ++ [0x02000040] :=
  ⟨by decide, { State.reset with hostSends := [0x01000000, 0x727, 0, 0x02000040] }, rfl, rfl, by decide⟩

theorem witness_IdleBlockHoldsItsState :
    State.reset.response = [] ∧ State.reset.hostSends = [] ∧ State.reset.rxPacket = [] := by decide

/-- The hang of `StepStopsOnlyInAHang` exists. -/
theorem witness_StepStopsOnlyInAHang :
    State.reset.response = [] ∧ State.reset.hostSends = [] ∧ [(0x01000000 : Word)] ≠ [] ∧
      step { State.reset with rxPacket := [0x01000000] } = .refused .hostStoppedMidPacket :=
  ⟨rfl, rfl, by decide, rfl⟩

theorem witness_FetchWordIsRunNext :
    decodeTableWord 32 0x03000000 = some (.block 0 0) ∧
      decodeTableWord 32 0x0200007f = some (.bits 127) := by decide

theorem witness_QuarterRoundIsTheTwelveSteps : [(0 : Fin 16), 4, 8, 12].Nodup := by decide

theorem witness_QuarterRoundFrame : (1 : Fin 16) ∉ [(0 : Fin 16), 4, 8, 12] := by decide

theorem witness_DisjointQuarterRoundsCommute :
    [(0 : Fin 16), 4, 8, 12, 1, 5, 9, 13].Nodup := by decide

/-- INIT 0 and BITS 0, run from reset: a reachable state with a block generated. -/
theorem witness_BlockAgreesWithTheStream : ∃ s : State, Reachable s ∧ s.ctr ≠ 0 := by
  have offered : Reachable
      ([0x01000000, 0, 0, 0x02000000].foldl State.offer State.reset) := Reachable.reset.offers _
  have run : ∃ t, steps 5 ([0x01000000, 0, 0, 0x02000000].foldl State.offer State.reset) = .next t ∧
      t.ctr ≠ 0 := ⟨_, rfl, by decide⟩
  obtain ⟨t, ht, hc⟩ := run
  exact ⟨t, offered.steps ht, hc⟩

/-- The three cases of Refill, the first at its last word. -/
theorem witness_RefillTakesTheNextWord :
    ({ freshStream with cur := 15 } : State).cur.val = (15 : Fin 16).val ∧
      (freshStream.cur = 16 ∧ freshStream.ctr ≠ BitVec.allOnes 64) ∧
      (lastBlock.cur = 16 ∧ lastBlock.ctr = BitVec.allOnes 64) := by decide

theorem witness_BitsLoopEndsByItsOwnTest : freshStream.avail.val ≤ 64 ∧ 64 ≤ 64 := by decide

theorem witness_BitsAboveSixtyFourIsUsage : 64 < 65 := by decide

theorem witness_BitsWithoutAStreamIsNoStream : 64 ≤ 64 ∧ State.reset.stream = false := by decide

theorem witness_BitsOnAnAbortedStreamIsFaulted :
    0 ≤ 64 ∧ ({ lastBlock with fault := true } : State).stream = true ∧
      ({ lastBlock with fault := true } : State).fault = true := by decide

theorem witness_BitsExhaustionDiscardsItsWrites :
    32 ≤ 64 ∧ lastBlock.stream = true ∧ lastBlock.fault = false ∧
      lastBlock.ctr = BitVec.allOnes 64 ∧
      16 - lastBlock.cur.val < refillCount 32 lastBlock.avail.val := by decide

/-- A draw that generates a block (64 bits on a fresh stream), one that just does not need it (31 of 32 bits at the last word), and the edges of RES. -/
theorem witness_BitsDrawInClosedForm :
    (64 ≤ 64 ∧ freshStream.stream = true ∧ freshStream.fault = false ∧
      exhausts 64 freshStream = false ∧
      16 - freshStream.cur.val < refillCount 64 freshStream.avail.val ∧ freshStream.avail.val ≤ 64) ∧
    (31 ≤ 64 ∧ lastBlock.stream = true ∧ lastBlock.fault = false ∧ exhausts 31 lastBlock = false ∧
      refillCount 31 lastBlock.avail.val ≤ 16 - lastBlock.cur.val ∧ 31 < lastBlock.avail.val) := by
  decide

theorem witness_BitsDrawsTheKeystream :
    runningStream.StreamInv Config.key ∧ 64 ≤ 64 ∧ runningStream.stream = true ∧
      runningStream.fault = false ∧ exhausts 64 runningStream = false :=
  ⟨.inr ⟨by decide, by decide, by decide, rfl, by simp [runningStream, shr32]⟩, by decide, rfl, rfl,
    by decide⟩

theorem witness_BitsZero :
    (runningStream.stream = true ∧ runningStream.fault = false ∧ 1 ≤ runningStream.avail.val) ∧
      (freshStream.stream = true ∧ freshStream.fault = false ∧ freshStream.Fresh) :=
  ⟨⟨rfl, rfl, by decide⟩, rfl, rfl, by decide⟩

theorem witness_BitsSixtyFourOnAFreshStream :
    freshStream.stream = true ∧ freshStream.fault = false ∧ freshStream.Fresh := by decide

/-- The three cases of an eager refill, each with one bit available. -/
theorem witness_DrawToTheEndRefillsEagerly :
    (∃ s : State, s.stream = true ∧ s.fault = false ∧ 1 ≤ s.avail.val ∧ s.cur.val = (15 : Fin 16).val) ∧
    (∃ s : State, s.stream = true ∧ s.fault = false ∧ 1 ≤ s.avail.val ∧ s.cur = 16 ∧
      s.ctr ≠ BitVec.allOnes 64) ∧
    (∃ s : State, s.stream = true ∧ s.fault = false ∧ 1 ≤ s.avail.val ∧ s.cur = 16 ∧
      s.ctr = BitVec.allOnes 64) :=
  ⟨⟨{ freshStream with cur := 15, avail := 1 }, by decide⟩,
    ⟨{ freshStream with ctr := BitVec.allOnes 64 - 1, avail := 1 }, by decide⟩,
    ⟨{ lastBlock with avail := 1 }, by decide⟩⟩

theorem witness_OnlyInitChangesTheNonce :
    ∃ t, step lastOperand = .next t ∧ t.nonce ≠ lastOperand.nonce := ⟨_, rfl, by decide⟩

theorem witness_OnlyInitSetsTheStreamFlag :
    ∃ t, step lastOperand = .next t ∧ t.stream ≠ lastOperand.stream := ⟨_, rfl, by decide⟩

/-- FAULT set by an exhausting BITS, and cleared by INIT. -/
theorem witness_FaultIsStickyUntilInit :
    (∃ t, step { lastBlock with hostSends := [0x02000020] } = .next t ∧
      lastBlock.fault = false ∧ t.fault = true) ∧
    (∃ t, step { lastOperand with stream := true, fault := true } = .next t ∧ t.fault = false) :=
  ⟨⟨_, rfl, by decide, by decide⟩, ⟨_, rfl, by decide⟩⟩

theorem witness_StepKeepsTheInvariant :
    State.reset.Inv Config.key ∧ ∃ t, step State.reset = .next t :=
  ⟨⟨.inl (by decide), by decide, by decide⟩, _, rfl⟩

theorem witness_ReachableStatesAreFreshOrRunning :
    Reachable (State.reset.offer 0x02000005) ∧ ¬(State.reset.offer 0x02000005).Running Config.key ∧
      step (State.reset.offer 0x02000005) = .next { State.reset with response := [0x02000003] } :=
  ⟨Reachable.reset.offer _, fun h => h.1 rfl, rfl⟩

theorem witness_RoundsAreTheirQuarterRoundsInAnyOrder :
    [((3 : Fin 16), (7 : Fin 16), (11 : Fin 16), (15 : Fin 16)), (2, 6, 10, 14), (1, 5, 9, 13), (0, 4, 8, 12)].Perm
        [(0, 4, 8, 12), (1, 5, 9, 13), (2, 6, 10, 14), (3, 7, 11, 15)] ∧
      [((3 : Fin 16), (4 : Fin 16), (9 : Fin 16), (14 : Fin 16)), (2, 7, 8, 13), (1, 6, 11, 12), (0, 5, 10, 15)].Perm
        [(0, 5, 10, 15), (1, 6, 11, 12), (2, 7, 8, 13), (3, 4, 9, 14)] :=
  ⟨by decide, by decide⟩

theorem witness_CoreIsTheWholeAlgorithm :
    (initialBlock rk 0x4a000000 0x0900000000000001).toList =
      [0x61707865, 0x3320646e, 0x79622d32, 0x6b206574] ++ rk.toList ++
        [(0x0900000000000001 : DWord).extractLsb' 0 32, (0x0900000000000001 : DWord).extractLsb' 32 32,
          (0x4a000000 : DWord).extractLsb' 0 32, (0x4a000000 : DWord).extractLsb' 32 32] := by decide

theorem witness_PositionStaysInTheDeliveredBlocks : Reachable (State.reset.resetSignal (Vector.replicate 16 7)) :=
  Reachable.reset.resetSignal _

theorem witness_SpentWordBufferIsInvisible :
    SameStream freshStream { freshStream with wbuf := Vector.replicate 16 7 } ∧
      freshStream.wbuf ≠ Vector.replicate 16 7 :=
  ⟨⟨rfl, rfl, rfl, rfl, rfl, rfl, rfl, .inl rfl⟩, by decide⟩

theorem witness_DrawsConsumeTheirSum :
    freshStream.StreamInv rk ∧ ∀ r ∈ responses rk freshStream (draws ([7] ++ [64])), r.rc = .ok :=
  ⟨.inl (by decide), by decide +kernel⟩

theorem witness_OneBitDrawsAreTheKeystream :
    freshStream.StreamInv rk ∧ ∀ r ∈ responses rk freshStream (draws (List.replicate 3 1)), r.rc = .ok :=
  ⟨.inl (by decide), by decide +kernel⟩

theorem witness_NonceBits : nonceOf [0xff, 0xff, 0xff, 0xff] 0 = .ok 0x7ff0 := by decide

theorem witness_NonceBitsTheLabelCannotReach : nonceOf [0x70, 0x31] 7 = .ok 0x727 := by decide

theorem witness_InstancesAreIndependent :
    ∃ (p q r : Platform 2), (0 : Fin 2) ≠ 1 ∧ p.stepInstance 0 = .next q ∧ p.stepInstance 1 = .next r :=
  ⟨⟨#v[lastOperand, State.reset]⟩, _, _, by decide, rfl, rfl⟩

end Sys2Proof.Tests
end

section
/-! PROOF. The instances of a platform (R8, R155): what `Platform.put` writes and leaves, what a step of one instance is, and that two instances do not see each other. -/

namespace Sys2Proof.Machine

@[simp] theorem Platform.put_instances_same {n : Nat} (p : Platform n) (i : Fin n) (s : State) :
    (p.put i s).instances[i] = s :=
  Vector.getElem_set_self i.isLt

theorem Platform.put_instances_of_ne {n : Nat} {i j : Fin n} (p : Platform n) (s : State) (h : i ≠ j) :
    (p.put i s).instances[j] = p.instances[j] :=
  Vector.getElem_set_ne i.isLt j.isLt (Fin.val_ne_of_ne h)

theorem Platform.put_comm {n : Nat} {i j : Fin n} (p : Platform n) (s t : State) (h : i ≠ j) :
    (p.put i s).put j t = (p.put j t).put i s :=
  congrArg Platform.mk (Vector.set_comm s t (Fin.val_ne_of_ne h))

/-- All that a step of one instance can do: it reads and replaces the state of that instance. -/
theorem Platform.stepInstance_eq_next_iff {n : Nat} {p q : Platform n} {i : Fin n} :
    p.stepInstance i = .next q ↔ ∃ t, step p.instances[i] = .next t ∧ p.put i t = q := by
  unfold Platform.stepInstance
  cases step p.instances[i] <;> simp

/-- Another instance, put into a new state, does not change what a step of instance `j` does. -/
theorem Platform.stepInstance_put_of_ne {n : Nat} {i j : Fin n} {p : Platform n} {s t : State} (h : i ≠ j)
    (hstep : step p.instances[j] = .next t) : (p.put i s).stepInstance j = .next ((p.put i s).put j t) :=
  stepInstance_eq_next_iff.mpr ⟨t, by rw [put_instances_of_ne p s h, hstep], rfl⟩

/-- Settles O55: both orders write the same two states, each computed from its own instance alone. -/
theorem instancesAreIndependent : Obligations.InstancesAreIndependent := by
  intro n p q r i j hne hi hj
  obtain ⟨s, hs, rfl⟩ := Platform.stepInstance_eq_next_iff.mp hi
  obtain ⟨t, ht, rfl⟩ := Platform.stepInstance_eq_next_iff.mp hj
  have hown : step p.instances[i] = .next (p.put i s).instances[i] := by
    rw [Platform.put_instances_same, hs]
  have hji : (p.put j t).stepInstance i = .next ((p.put i s).put j t) := by
    rw [Platform.stepInstance_put_of_ne hne.symm hs, Platform.put_comm p s t hne]
  exact ⟨hown, Platform.put_instances_of_ne p s hne, _, Platform.stepInstance_put_of_ne hne ht, hji⟩

end Sys2Proof.Machine
end

section
/-! PROOF. What one command and one step leave behind, said once, and what follows for the registers a command may write: CTR (R22), NONCE (R21), STREAM (R27), FAULT (R28). -/

namespace Sys2Proof.Machine

/-- A draw that gives a value did not exhaust the stream, and leaves `DrawRegisters`. -/
theorem bitsCore_eq_some {key : Key} {n : Nat} {r : DWord} {s t : State} (hn : n ≤ 64)
    (h : bitsCore key n s = some (r, t)) :
    exhausts n s = false ∧ DrawRegisters key n s t ∧ DrawFrame s t := by
  have hturns := refillCount_le_three n s.avail.val hn
  obtain ⟨hstop, hdraw⟩ := bitsLoop_draws key 3 0 n s hturns (by omega)
  have hex : exhausts n s = false := by
    by_contra hx
    exact Option.some_ne_none _ (h.symm.trans (hstop (by simpa using hx)))
  obtain ⟨q, u, hloop, hregs⟩ := hdraw hex
  cases h.symm.trans hloop
  exact ⟨hex, hregs, bitsLoop_frame 3 h⟩

theorem initCmd_words (nonce : DWord) (s : State) : (initCmd nonce s).2.words = [0x01000000] := by
  simp only [initCmd, respondOk_snd, Response.words_eq]
  decide

theorem exhaust_words (s : State) : (exhaust s).2.words = [0x02000005] := by
  simp only [exhaust_snd, Response.words_eq]
  decide

/-- Everything a command can do: start a stream, exhaust one, draw from one, or answer without a register write. -/
theorem exec_eq_next {i : Instr} {s t : State} (h : exec i s = .next t) :
    (∃ nonce, i = .init nonce ∧ t = (s.startStream nonce).putResponse [0x01000000]) ∨
      (∃ n, i = .bits n ∧ n ≤ 64 ∧ s.stream = true ∧ s.fault = false ∧
        bitsCore Config.key n s = none ∧ t = s.setFault.putResponse [0x02000005]) ∨
      (∃ n r u, i = .bits n ∧ n ≤ 64 ∧ s.stream = true ∧ s.fault = false ∧
        bitsCore Config.key n s = some (r, u) ∧ ∃ ws, t = u.putResponse ws) ∨
      ∃ ws, t = s.putResponse ws := by
  cases i with
  | init nonce => exact .inl ⟨nonce, rfl, initCmd_words nonce s ▸ (deliver_eq_next.mp h).symm⟩
  | block nonce counter => exact .inr (.inr (.inr ⟨_, (deliver_eq_next.mp h).symm⟩))
  | status => exact .inr (.inr (.inr ⟨_, (deliver_eq_next.mp h).symm⟩))
  | bits n =>
    have ht := (deliver_eq_next.mp h).symm
    obtain ⟨-, e⟩ | ⟨-, -, e⟩ | ⟨-, -, -, e⟩ | ⟨hn, hs, hf, hu, e⟩ | ⟨hn, hs, hf, r, u, hu, e⟩ :=
      bitsCmd_cases Config.key n s <;> rw [e] at ht
    · exact .inr (.inr (.inr ⟨_, ht⟩))
    · exact .inr (.inr (.inr ⟨_, ht⟩))
    · exact .inr (.inr (.inr ⟨_, ht⟩))
    · exact .inr (.inl ⟨n, rfl, hn, hs, hf, hu, exhaust_words s ▸ ht⟩)
    · exact .inr (.inr (.inl ⟨n, r, u, rfl, hn, hs, hf, hu, _, ht⟩))

/-- Every command has a next state. -/
theorem exists_exec_eq_next (i : Instr) (s : State) : ∃ t, exec i s = .next t := by
  cases i <;> exact ⟨_, rfl⟩

/-- Everything a step can do: run a command, or move words on the port only. -/
theorem step_eq_next {s t : State} (h : step s = .next t) :
    (∃ w offered i rest, s.response = [] ∧ s.hostSends = w :: offered ∧
      decode (s.rxPacket ++ [w]) = .complete i rest ∧ exec i (s.accept rest offered) = .next t) ∨
      ∃ packet response sends got, t = { s with
        rxPacket := packet, response := response, hostSends := sends, hostGot := got } := by
  obtain ⟨w, rest, -, e⟩ | ⟨hr, w, offered, hs, hcmd⟩ | ⟨-, -, -, e⟩ | ⟨-, -, -, e⟩ := step_cases s
  · cases e.symm.trans h
    exact .inr ⟨_, _, _, _, rfl⟩
  · obtain ⟨i, rest, hd, e⟩ | ⟨cw, why, rest, -, e⟩ | ⟨-, e⟩ := hcmd
    · exact .inl ⟨w, offered, i, rest, hr, hs, hd, e ▸ h⟩
    · cases e.symm.trans h
      exact .inr ⟨_, _, _, _, rfl⟩
    · cases e.symm.trans h
      exact .inr ⟨_, _, _, _, rfl⟩
  · cases e.symm.trans h
    exact .inr ⟨_, _, _, _, rfl⟩
  · cases e.symm.trans h

/-- The counter after a draw: unchanged, or one block further, which is the block of WBUF. -/
theorem bitsCore_ctr {key : Key} {n : Nat} {r : DWord} {s t : State} (hn : n ≤ 64)
    (h : bitsCore key n s = some (r, t)) :
    t.ctr = s.ctr ∨
      (s.ctr ≠ BitVec.allOnes 64 ∧ t.ctr = s.ctr + 1 ∧ t.wbuf = coreBlock key s.nonce s.ctr) := by
  obtain ⟨hex, hregs, -⟩ := bitsCore_eq_some hn h
  rcases Nat.lt_or_ge (16 - s.cur.val) (refillCount n s.avail.val) with hgen | hkept
  · obtain ⟨hctr, hwbuf, -⟩ := hregs.generated hgen
    refine .inr ⟨fun hmax => ?_, hctr, hwbuf⟩
    simp [exhausts, hmax, hgen] at hex
  · exact .inl (hregs.kept hkept).1

/-- A counter below its last value is greater by 1 as a number after the increment. -/
theorem toNat_add_one_of_ne_allOnes {c : DWord} (h : c ≠ BitVec.allOnes 64) :
    (c + 1).toNat = c.toNat + 1 := by
  have hne : c.toNat ≠ 2 ^ 64 - 1 := fun e => h (BitVec.eq_of_toNat_eq (by simpa using e))
  have hlt := c.isLt
  rw [BitVec.toNat_add]
  simp
  omega

/-- Settles O36: only a draw counts, and it does not count past the last block. -/
theorem counterOnlyCountsBlocks : Obligations.CounterOnlyCountsBlocks := by
  intro i s
  obtain ⟨t, ht⟩ := exists_exec_eq_next i s
  refine ⟨t, ht, ?_⟩
  obtain ⟨nonce, hi, rfl⟩ | ⟨-, -, -, -, -, -, rfl⟩ | ⟨n, r, u, hi, hn, -, -, hdraw, ws, rfl⟩ | ⟨ws, rfl⟩ :=
    exec_eq_next ht
  · exact .inr (.inl ⟨nonce, hi, rfl⟩)
  · exact .inl rfl
  · obtain hctr | ⟨hmax, hctr, hwbuf⟩ := bitsCore_ctr hn hdraw
    · exact .inl hctr
    · have hcount := toNat_add_one_of_ne_allOnes hmax
      exact .inr (.inr ⟨n, hi, by rw [State.putResponse_ctr, hctr, hcount], hwbuf⟩)
  · exact .inl rfl

/-- The next step takes the last word of an INIT packet with this nonce. -/
def State.TakesInit (s : State) (nonce : DWord) : Prop :=
  ∃ w offered rest, s.response = [] ∧ s.hostSends = w :: offered ∧
    decode (s.rxPacket ++ [w]) = .complete (.init nonce) rest

/-- What a step can do to NONCE, STREAM and FAULT: INIT writes all three, exhaustion sets FAULT, everything else leaves them. -/
theorem step_nonce_stream_fault {s t : State} (h : step s = .next t) :
    (s.TakesInit t.nonce ∧ t.stream = true ∧ t.fault = false) ∨
      (s.response = [] ∧ t.response = [0x02000005] ∧
        t.nonce = s.nonce ∧ t.stream = s.stream ∧ t.fault = true) ∨
      (t.nonce = s.nonce ∧ t.stream = s.stream ∧ t.fault = s.fault) := by
  obtain ⟨w, offered, i, rest, hr, hs, hd, hexec⟩ | ⟨packet, response, sends, got, rfl⟩ :=
    step_eq_next h
  · obtain ⟨nonce, rfl, rfl⟩ | ⟨-, -, -, -, -, -, rfl⟩ | ⟨n, r, u, -, hn, -, -, hdraw, ws, rfl⟩ | ⟨ws, rfl⟩ :=
      exec_eq_next hexec
    · exact .inl ⟨⟨w, offered, rest, hr, hs, hd⟩, rfl, rfl⟩
    · exact .inr (.inl ⟨hr, rfl, rfl, rfl, rfl⟩)
    · obtain ⟨-, -, hframe⟩ := bitsCore_eq_some hn hdraw
      exact .inr (.inr ⟨hframe.nonce, hframe.stream, hframe.fault⟩)
    · exact .inr (.inr ⟨rfl, rfl, rfl⟩)
  · exact .inr (.inr ⟨rfl, rfl, rfl⟩)

/-- Settles O37: of the three ways a step treats NONCE, only INIT's changes it. -/
theorem onlyInitChangesTheNonce : Obligations.OnlyInitChangesTheNonce := by
  intro s t h hne
  obtain ⟨hinit, -, -⟩ | ⟨-, -, hnonce, -, -⟩ | ⟨hnonce, -, -⟩ := step_nonce_stream_fault h
  · exact hinit
  · exact absurd hnonce hne
  · exact absurd hnonce hne

/-- Settles O38: of the three ways a step treats STREAM, only INIT's changes it, to 1. -/
theorem onlyInitSetsTheStreamFlag : Obligations.OnlyInitSetsTheStreamFlag := by
  intro s t h hne
  obtain ⟨⟨w, offered, rest, hinit⟩, hset, -⟩ | ⟨-, -, -, hstream, -⟩ | ⟨-, hstream, -⟩ :=
    step_nonce_stream_fault h
  · exact ⟨hset, w, offered, rest, t.nonce, hinit⟩
  · exact absurd hstream hne
  · exact absurd hstream hne

/-- Settles O39: exhaustion is the one way to FAULT = 1, and INIT the one way back. -/
theorem faultIsStickyUntilInit : Obligations.FaultIsStickyUntilInit := by
  intro s t h
  obtain ⟨⟨w, offered, rest, hinit⟩, -, hclear⟩ | ⟨hr, hresp, -, -, hset⟩ | ⟨-, -, hsame⟩ :=
    step_nonce_stream_fault h
  · exact ⟨fun _ hf => by simp [hclear] at hf, fun _ _ => ⟨w, offered, rest, t.nonce, hinit⟩⟩
  · exact ⟨fun _ _ => ⟨hr, hresp⟩, fun _ hf => by simp [hset] at hf⟩
  · exact ⟨fun h0 h1 => by simp [hsame, h0] at h1, fun h1 h0 => by simp [hsame, h1] at h0⟩

end Sys2Proof.Machine
end

section
/-! PROOF. The two forms of a stream's state (R32): every step keeps them, and they bound RES, CUR and the stream position (R31). -/

namespace Sys2Proof.Machine

theorem not_running_of_fresh {key : Key} {s : State} (h : s.Fresh) : ¬s.Running key :=
  fun hrun => hrun.1 h.1

/-- The bits consumed from a word by two draws are consumed by one shift of both. -/
theorem shr32_ushiftRight (w : Word) (a n : Nat) : shr32 w a >>> n = shr32 w (a + n) :=
  (BitVec.shiftRight_add w a n).symm

theorem shr32_toNat_lt (w : Word) {a : Nat} (ha : a ≤ 32) : (shr32 w (32 - a)).toNat < 2 ^ a := by
  have hsplit : 2 ^ 32 = 2 ^ a * 2 ^ (32 - a) := by rw [← Nat.pow_add]; congr 1; omega
  rw [shr32, BitVec.toNat_ushiftRight, Nat.shiftRight_eq_div_pow]
  exact Nat.div_lt_of_lt_mul (by rw [Nat.mul_comm, ← hsplit]; exact w.isLt)

/-- A draw past the reservoir leaves a partly consumed word of WBUF: the clauses of Running on CUR, AVAIL and RES. -/
theorem DrawRegisters.reservoir_of_past {key : Key} {n : Nat} {s t : State}
    (hregs : DrawRegisters key n s t) (hn : s.avail.val ≤ n) :
    1 ≤ t.cur.val ∧ 1 ≤ t.avail.val ∧
      t.res = shr32 (t.wbuf[t.cur.val - 1]'(by omega)) (32 - t.avail.val) := by
  obtain ⟨havail, hcur, hres⟩ := hregs.past hn
  have hused : (n - s.avail.val) % 32 = 32 - t.avail.val := by omega
  exact ⟨hcur, by omega, by rw [hres, hused, shr32]⟩

/-- A draw that generates a block leaves a Running state. -/
theorem DrawRegisters.running_of_generated {key : Key} {n : Nat} {s t : State}
    (hregs : DrawRegisters key n s t) (hframe : DrawFrame s t) (hmax : s.ctr ≠ BitVec.allOnes 64)
    (hgen : 16 - s.cur.val < refillCount n s.avail.val) : t.Running key := by
  obtain ⟨hctr, hwbuf, -⟩ := hregs.generated hgen
  have hpast : s.avail.val ≤ n := by
    by_contra hlt
    rw [refillCount_of_lt _ _ (by omega)] at hgen
    omega
  obtain ⟨hcur, havail, hres⟩ := hregs.reservoir_of_past hpast
  have hne : t.ctr ≠ 0 := fun h0 => by
    have hcount := toNat_add_one_of_ne_allOnes hmax
    rw [← hctr, h0] at hcount
    simp at hcount
  exact ⟨hne, hcur, havail, by rw [hwbuf, hframe.nonce, hctr, BitVec.add_sub_cancel], hres⟩

/-- A draw from WBUF alone keeps a state Running. -/
theorem DrawRegisters.running_of_kept {key : Key} {n : Nat} {s t : State}
    (hregs : DrawRegisters key n s t) (hframe : DrawFrame s t) (hrun : s.Running key)
    (hkept : refillCount n s.avail.val ≤ 16 - s.cur.val) : t.Running key := by
  obtain ⟨hne, hcur1, -, hblock, hres⟩ := hrun
  obtain ⟨hctr, hwbuf, hcur⟩ := hregs.kept hkept
  have hblock' : t.wbuf = coreBlock key t.nonce (t.ctr - 1) := by
    rw [hwbuf, hctr, hframe.nonce, hblock]
  rcases Nat.lt_or_ge n s.avail.val with hn | hn
  · obtain ⟨havail, hshift⟩ := hregs.within hn
    rw [refillCount_of_lt _ _ hn, Nat.add_zero] at hcur
    have hleft : 32 - s.avail.val + n = 32 - t.avail.val := by omega
    refine ⟨hctr ▸ hne, by omega, by omega, hblock', ?_⟩
    rw [hshift, hres, shr32_ushiftRight, hleft]
    simp only [hwbuf, hcur]
  · obtain ⟨hcur', havail, hres'⟩ := hregs.reservoir_of_past hn
    exact ⟨hctr ▸ hne, hcur', havail, hblock', hres'⟩

/-- A draw from a state of either form leaves a Running state. -/
theorem bitsCore_running {key : Key} {n : Nat} {r : DWord} {s t : State} (hn : n ≤ 64)
    (hs : s.StreamInv key) (h : bitsCore key n s = some (r, t)) : t.Running key := by
  obtain ⟨hex, hregs, hframe⟩ := bitsCore_eq_some hn h
  rcases Nat.lt_or_ge (16 - s.cur.val) (refillCount n s.avail.val) with hgen | hkept
  · have hmax : s.ctr ≠ BitVec.allOnes 64 := fun hmax => by simp [exhausts, hmax, hgen] at hex
    exact hregs.running_of_generated hframe hmax hgen
  · obtain ⟨-, hcur, havail, -⟩ | hrun := hs
    · have hturn := refillCount_of_le n s.avail.val (by simp [havail])
      simp only [hcur] at hkept
      simp at hkept
      omega
    · exact hregs.running_of_kept hframe hrun hkept

theorem exec_keeps_streamInv {i : Instr} {s t : State} (hs : s.StreamInv Config.key)
    (h : exec i s = .next t) : t.StreamInv Config.key := by
  obtain ⟨nonce, -, rfl⟩ | ⟨-, -, -, -, -, -, rfl⟩ | ⟨n, r, u, -, hn, -, -, hdraw, ws, rfl⟩ | ⟨ws, rfl⟩ :=
    exec_eq_next h
  · exact .inl ⟨rfl, rfl, rfl, rfl⟩
  · exact hs
  · exact .inr (show u.Running Config.key from bitsCore_running hn hs hdraw)
  · exact hs

theorem step_keeps_streamInv {s t : State} (hs : s.StreamInv Config.key) (h : step s = .next t) :
    t.StreamInv Config.key := by
  obtain ⟨w, offered, i, rest, -, -, -, hexec⟩ | ⟨packet, response, sends, got, rfl⟩ :=
    step_eq_next h
  · exact exec_keeps_streamInv (s := s.accept rest offered) hs hexec
  · exact hs

/-- R32 holds after reset, and steps, offered words and reset signals keep it. -/
theorem Reachable.streamInv {s : State} (h : Reachable s) : s.StreamInv Config.key := by
  induction h with
  | reset => exact .inl ⟨rfl, rfl, rfl, rfl⟩
  | step _ hstep ih => exact step_keeps_streamInv ih hstep
  | offer w _ ih => exact ih
  | resetSignal wbuf _ _ => exact .inl ⟨rfl, rfl, rfl, rfl⟩

theorem State.StreamInv.res_lt {key : Key} {s : State} (h : s.StreamInv key) :
    s.res.toNat < 2 ^ s.avail.val := by
  obtain ⟨-, -, havail, hres⟩ | ⟨-, -, -, -, hres⟩ := h
  · simp [havail, hres]
  · exact hres ▸ shr32_toNat_lt _ (by omega)

theorem State.StreamInv.cur_ne_zero {key : Key} {s : State} (h : s.StreamInv key) : s.cur ≠ 0 := by
  intro h0
  obtain ⟨-, hcur, -, -⟩ | ⟨-, hcur, -⟩ := h
  · exact absurd (h0.symm.trans hcur) (by decide)
  · simp [h0] at hcur

/-- Settles O43: a Running state has consumed part of a block whose counter is below 2^64 - 1, and left at least one bit of it. -/
theorem positionStaysInTheDeliveredBlocks : Obligations.PositionStaysInTheDeliveredBlocks := by
  intro s hs
  have hend : streamPos s < (2 ^ 64 - 1) * 512 := by
    obtain ⟨hctr, -⟩ | ⟨hctr, -, havail, -⟩ := hs.streamInv
    · simp [streamPos, hctr]
    · have hmax := s.ctr.isLt
      have hpos : s.ctr.toNat ≠ 0 := fun h0 => hctr (BitVec.eq_of_toNat_eq (by simpa using h0))
      rw [streamPos, if_neg hctr]
      omega
  exact ⟨hend, by omega⟩

end Sys2Proof.Machine
end

section
/-! PROOF. In a Fresh state no step reads WBUF: with no word left in it, a draw generates a block before it takes a word (R32, D9). -/

namespace Sys2Proof.Machine

/-- The state with another WBUF. -/
def State.setWbuf (s : State) (wbuf : Block) : State := { s with wbuf := wbuf }

@[simp] theorem State.setWbuf_stream (s : State) (wbuf : Block) : (s.setWbuf wbuf).stream = s.stream := rfl
@[simp] theorem State.setWbuf_fault (s : State) (wbuf : Block) : (s.setWbuf wbuf).fault = s.fault := rfl

/-- `f` does not read WBUF in the state `s`: with another WBUF it gives the same next state, its WBUF written alike or left as it was. -/
def WbufUnread (f : State → Outcome) (s : State) : Prop :=
  ∀ (wbuf : Block) (t : State), f s = .next t →
    f (s.setWbuf wbuf) = .next t ∨
      (t.wbuf = s.wbuf ∧ f (s.setWbuf wbuf) = .next (t.setWbuf wbuf))

/-- An operation that leaves every WBUF as it is. -/
theorem WbufUnread.of_left {f : State → Outcome} {s u : State} (hs : f s = .next u) (hu : u.wbuf = s.wbuf)
    (hw : ∀ wbuf, f (s.setWbuf wbuf) = .next (u.setWbuf wbuf)) : WbufUnread f s := by
  intro wbuf t ht
  cases hs.symm.trans ht
  exact .inr ⟨hu, hw wbuf⟩

/-- A refill that finds WBUF spent does not read it. -/
theorem refill_setWbuf {s : State} (key : Key) (wbuf : Block) (hcur : s.cur = 16) :
    refill key (s.setWbuf wbuf) = refill key s := by
  simp only [refill, State.setWbuf, hcur]
  rfl

/-- A draw that has to refill first, with WBUF spent, does not read it. -/
theorem bitsCore_setWbuf {n : Nat} {s : State} (key : Key) (wbuf : Block) (hcur : s.cur = 16)
    (hn : s.avail.val ≤ n) : bitsCore key n (s.setWbuf wbuf) = bitsCore key n s := by
  have hrefill := refill_setWbuf key wbuf hcur
  unfold bitsCore
  cases hr : refill key s with
  | none => rw [bitsLoop_none hn hr, bitsLoop_none (s := s.setWbuf wbuf) hn (hrefill.trans hr)]
  | some u =>
    rw [bitsLoop_turn hn hr, bitsLoop_turn (s := s.setWbuf wbuf) hn (hrefill.trans hr)]
    rfl

/-- BITS in a Fresh state: a draw does not see WBUF, and an error leaves it. -/
theorem bitsCmd_setWbuf {s : State} (key : Key) (n : Nat) (wbuf : Block) (hs : s.Fresh) :
    bitsCmd key n (s.setWbuf wbuf) = bitsCmd key n s ∨
      ((bitsCmd key n s).1.wbuf = s.wbuf ∧
        bitsCmd key n (s.setWbuf wbuf) =
          ((bitsCmd key n s).1.setWbuf wbuf, (bitsCmd key n s).2)) := by
  obtain ⟨-, hcur, havail, -⟩ := hs
  have hcore := bitsCore_setWbuf (n := n) key wbuf hcur (by simp [havail])
  simp only [bitsCmd, hcore, State.setWbuf_stream, State.setWbuf_fault]
  split
  · exact .inr ⟨rfl, rfl⟩
  split
  · exact .inr ⟨rfl, rfl⟩
  split
  · exact .inr ⟨rfl, rfl⟩
  split
  · exact .inr ⟨rfl, rfl⟩
  · exact .inl rfl

theorem exec_wbufUnread {s : State} (i : Instr) (hs : s.Fresh) : WbufUnread (exec i) s := by
  cases i with
  | init nonce => exact .of_left rfl rfl fun _ => rfl
  | block nonce counter => exact .of_left rfl rfl fun _ => rfl
  | status => exact .of_left rfl rfl fun _ => rfl
  | bits n =>
    intro wbuf t ht
    obtain rfl := deliver_eq_next.mp ht
    obtain e | ⟨hleft, e⟩ := bitsCmd_setWbuf Config.key n wbuf hs
    · exact .inl (deliver_eq_next.mpr (by rw [e]))
    · exact .inr ⟨hleft, deliver_eq_next.mpr (by rw [e]; rfl)⟩

theorem receive_wbufUnread {s : State} (packet offered : List Word) (hs : s.Fresh) :
    WbufUnread (receive packet offered) s := by
  cases hd : decode packet with
  | complete i rest =>
    have hrun : receive packet offered = fun s => exec i (s.accept rest offered) := by
      funext s; simp [receive, hd]
    rw [hrun]
    exact exec_wbufUnread (s := s.accept rest offered) i hs
  | illegal cw why rest =>
    have hrun : receive packet offered = fun s => execIllegal cw (s.accept rest offered) := by
      funext s; simp [receive, hd]
    rw [hrun]
    exact .of_left rfl rfl fun _ => rfl
  | incomplete =>
    have hrun : receive packet offered = fun s => .next (s.accept packet offered) := by
      funext s; simp [receive, hd]
    rw [hrun]
    exact .of_left rfl rfl fun _ => rfl

theorem step_of_response {s : State} {w : Word} {rest : List Word} (hr : s.response = w :: rest) :
    step s = .next (s.readWord w rest) := by
  simp [step, hr]

theorem step_of_hostSends {s : State} {w : Word} {offered : List Word} (hr : s.response = [])
    (hs : s.hostSends = w :: offered) : step s = receive (s.rxPacket ++ [w]) offered s := by
  simp [step, hr, hs]

theorem step_of_idle {s : State} (hr : s.response = []) (hs : s.hostSends = [])
    (hp : s.rxPacket = []) : step s = .next s := by
  simp [step, hr, hs, hp]

theorem step_wbufUnread {s : State} (hs : s.Fresh) : WbufUnread step s := by
  obtain ⟨w, rest, hr, e⟩ | ⟨hr, w, offered, hw, -⟩ | ⟨hr, hw, hp, e⟩ | ⟨-, -, -, e⟩ := step_cases s
  · exact .of_left e rfl fun wbuf => step_of_response (s := s.setWbuf wbuf) hr
  · intro wbuf t ht
    rw [step_of_hostSends hr hw] at ht
    rw [step_of_hostSends (s := s.setWbuf wbuf) hr hw]
    exact receive_wbufUnread (s.rxPacket ++ [w]) offered hs wbuf t ht
  · exact .of_left e rfl fun wbuf => step_of_idle (s := s.setWbuf wbuf) hr hw hp
  · intro wbuf t ht
    cases e.symm.trans ht

/-- Settles O42: the invariant of R32 by induction on the run, and a state that is not Running is Fresh, where no step reads WBUF. -/
theorem reachableStatesAreFreshOrRunning : Obligations.ReachableStatesAreFreshOrRunning := by
  intro s hs
  have hinv := hs.streamInv
  refine ⟨?_, hinv.res_lt, hinv.cur_ne_zero, fun hnot => ?_⟩
  · obtain hfresh | hrun := hinv
    · exact .inl ⟨hfresh, not_running_of_fresh hfresh⟩
    · exact .inr ⟨hrun, fun hfresh => not_running_of_fresh hfresh hrun⟩
  · exact step_wbufUnread (hinv.resolve_right hnot)

end Sys2Proof.Machine
end

section
/-! PROOF. The port (20_memory.md): a waiting response is read out word by word (R46), only the hang of R158 stops a step, and a packet runs with its last word, so that no step leaves more than a part of one packet (R47). With what a command keeps of STREAM and FAULT (R27, R104), every step keeps the invariant. -/

namespace Sys2Proof.Machine

/-- Settles O10, by induction on the number of steps: each reads the front word of the response. -/
theorem portHoldsWordsUntilTheResponseIsRead :
    Obligations.PortHoldsWordsUntilTheResponseIsRead := by
  intro s k
  induction k generalizing s with
  | zero => simp [steps]
  | succ k ih =>
    intro hk
    cases hr : s.response with
    | nil => simp [hr] at hk
    | cons w rest =>
      have hrest : k ≤ (s.readWord w rest).response.length := by simpa [hr] using hk
      simpa [steps, step_of_response hr, State.readWord] using ih _ hrest

theorem step_of_hang {s : State} (hr : s.response = []) (hs : s.hostSends = [])
    (hp : s.rxPacket ≠ []) : step s = .refused .hostStoppedMidPacket := by
  simp [step, hr, hs, hp]

/-- A step has a next state whenever a word can be read or accepted, or nothing is received. -/
theorem exists_step_eq_next_or_hang (s : State) :
    (∃ t, step s = .next t) ∨ (s.response = [] ∧ s.hostSends = [] ∧ s.rxPacket ≠ []) := by
  obtain ⟨w, rest, -, e⟩ | ⟨-, w, offered, -, hword⟩ | ⟨-, -, -, e⟩ | ⟨hr, hs, hp, -⟩ := step_cases s
  · exact .inl ⟨_, e⟩
  · obtain ⟨i, rest, -, e⟩ | ⟨cw, why, rest, -, e⟩ | ⟨-, e⟩ := hword
    · exact .inl (e ▸ exists_exec_eq_next i _)
    · exact .inl ⟨_, e⟩
    · exact .inl ⟨_, e⟩
  · exact .inl ⟨_, e⟩
  · exact .inr ⟨hr, hs, hp⟩

/-- Settles O13: outside the hang every step has a next state, and in the hang it is the refusal. -/
theorem stepStopsOnlyInAHang : Obligations.StepStopsOnlyInAHang := by
  intro s
  refine ⟨⟨(exists_step_eq_next_or_hang s).resolve_left, ?_⟩, step_of_hang⟩
  rintro ⟨hr, hs, hp⟩ ⟨t, ht⟩
  cases (step_of_hang hr hs hp).symm.trans ht

/-- Operand words are missing, or the operands are the first words after the command word (R53, R60). -/
theorem readOperands_cases (op : Op) (cw : Word) (ws : List Word) :
    (ws.length < operandCount op ∧ readOperands op cw ws = .incomplete) ∨
      (∃ i, readOperands op cw ws = .complete i (ws.drop (operandCount op))) := by
  cases op with
  | init =>
    match ws with
    | [] | [_] => exact .inl ⟨by simp [operandCount], rfl⟩
    | _ :: _ :: _ => exact .inr ⟨_, rfl⟩
  | bits => exact .inr ⟨_, rfl⟩
  | block =>
    match ws with
    | [] | [_] | [_, _] | [_, _, _] => exact .inl ⟨by simp [operandCount], rfl⟩
    | _ :: _ :: _ :: _ :: _ => exact .inr ⟨_, rfl⟩
  | status => exact .inr ⟨_, rfl⟩

/-- The decoder waits for words of the packet, or consumes exactly the words that its command word announces (R55, R60). -/
theorem decode_cases (cw : Word) (ws : List Word) :
    (ws.length + 1 < packetLength cw ∧ decode (cw :: ws) = .incomplete) ∨
      (∃ i, decode (cw :: ws) = .complete i ((cw :: ws).drop (packetLength cw))) ∨
      (∃ why, decode (cw :: ws) = .illegal cw why ((cw :: ws).drop (packetLength cw))) := by
  obtain ⟨why, hc, e⟩ | ⟨op, hc, e⟩ := decode_cons cw ws
  · exact .inr (.inr ⟨why, by simp [e, packetLength, hc]⟩)
  · have hlen : packetLength cw = operandCount op + 1 := by simp [packetLength, hc, Nat.add_comm]
    obtain ⟨hmissing, hi⟩ | ⟨i, hi⟩ := readOperands_cases op cw ws
    · exact .inl ⟨by omega, e.trans hi⟩
    · exact .inr (.inl ⟨i, by rw [e, hi, hlen, List.drop_succ_cons]⟩)

theorem packetLength_pos (cw : Word) : 0 < packetLength cw := by
  unfold packetLength
  split <;> omega

/-- One word more than a part of a packet is at most the whole packet. -/
theorem exists_cons_of_incomplete {packet : List Word} (hp : decode packet = .incomplete) (w : Word) :
    ∃ cw ws, packet ++ [w] = cw :: ws ∧ (cw :: ws).length ≤ packetLength cw := by
  cases packet with
  | nil => exact ⟨w, [], rfl, packetLength_pos w⟩
  | cons cw ws =>
    refine ⟨cw, ws ++ [w], rfl, ?_⟩
    obtain ⟨hlen, -⟩ | ⟨i, e⟩ | ⟨why, e⟩ := decode_cases cw ws
    · simpa using hlen
    · simp [hp] at e
    · simp [hp] at e

/-- A word that completes a packet leaves no word after it. -/
theorem decode_append_of_incomplete {packet : List Word} (hp : decode packet = .incomplete) (w : Word) :
    decode (packet ++ [w]) = .incomplete ∨
      (∃ i, decode (packet ++ [w]) = .complete i []) ∨
      (∃ cw why, decode (packet ++ [w]) = .illegal cw why []) := by
  obtain ⟨cw, ws, hcons, hlen⟩ := exists_cons_of_incomplete hp w
  have hdrop := List.drop_eq_nil_of_le hlen
  rw [hcons]
  obtain ⟨-, e⟩ | ⟨i, e⟩ | ⟨why, e⟩ := hdrop ▸ decode_cases cw ws
  · exact .inl e
  · exact .inr (.inl ⟨i, e⟩)
  · exact .inr (.inr ⟨cw, why, e⟩)

/-- No command reads or writes the received words of the next packet. -/
theorem exec_rxPacket {i : Instr} {s t : State} (h : exec i s = .next t) : t.rxPacket = s.rxPacket := by
  obtain ⟨nonce, -, rfl⟩ | ⟨-, -, -, -, -, -, rfl⟩ | ⟨n, r, u, -, hn, -, -, hdraw, ws, rfl⟩ | ⟨ws, rfl⟩ :=
    exec_eq_next h
  · rfl
  · rfl
  · obtain ⟨-, -, hframe⟩ := bitsCore_eq_some hn hdraw
    exact hframe.rxPacket
  · rfl

theorem portInv_of_rxPacket_eq_nil {s : State} (h : s.rxPacket = []) : s.PortInv :=
  ⟨h ▸ rfl, fun _ => h⟩

/-- Only the word of a packet that stays incomplete leaves words received, and then no response waits. -/
theorem step_keeps_portInv {s t : State} (hs : s.PortInv) (h : step s = .next t) : t.PortInv := by
  obtain ⟨hpart, hwait⟩ := hs
  obtain ⟨w, rest, hr, e⟩ | ⟨hr, w, offered, -, hword⟩ | ⟨-, -, hp, e⟩ | ⟨-, -, -, e⟩ := step_cases s
  · cases e.symm.trans h
    exact portInv_of_rxPacket_eq_nil (hwait (by simp [hr]))
  · have hrest := decode_append_of_incomplete hpart w
    obtain ⟨i, rest, hd, e⟩ | ⟨cw, why, rest, hd, e⟩ | ⟨hd, e⟩ := hword
    · have hnil : rest = [] := by simpa [hd] using hrest
      exact portInv_of_rxPacket_eq_nil ((exec_rxPacket (e.symm.trans h)).trans hnil)
    · have hnil : rest = [] := by simpa [hd] using hrest
      cases e.symm.trans h
      exact portInv_of_rxPacket_eq_nil hnil
    · cases e.symm.trans h
      exact ⟨hd, fun hne => absurd hr hne⟩
  · cases e.symm.trans h
    exact portInv_of_rxPacket_eq_nil hp
  · cases e.symm.trans h

/-- A draw without a result has met the last counter value (R103). -/
theorem ctr_of_bitsCore_eq_none {key : Key} {n : Nat} {s : State} (hn : n ≤ 64)
    (h : bitsCore key n s = none) : s.ctr = BitVec.allOnes 64 := by
  have hturns := refillCount_le_three n s.avail.val hn
  obtain ⟨-, hdraw⟩ := bitsLoop_draws key 3 0 n s hturns (by omega)
  by_contra hctr
  obtain ⟨r, t, hsome, -⟩ := hdraw (decide_eq_false fun hx => hctr hx.1)
  exact Option.some_ne_none _ (hsome.symm.trans h)

/-- INIT and a draw leave STREAM = 1 and FAULT = 0, and exhaustion sets FAULT at the last counter value. -/
theorem exec_keeps_flagInv {i : Instr} {s t : State} (hs : s.FlagInv) (h : exec i s = .next t) :
    t.FlagInv := by
  obtain ⟨nonce, -, rfl⟩ | ⟨n, -, hn, hstream, -, hnone, rfl⟩ |
    ⟨n, r, u, -, hn, hstream, hfault, hdraw, ws, rfl⟩ | ⟨ws, rfl⟩ := exec_eq_next h
  · exact ⟨nofun, nofun⟩
  · exact ⟨by simp [hstream], fun _ => show s.ctr = _ from ctr_of_bitsCore_eq_none hn hnone⟩
  · obtain ⟨-, -, hframe⟩ := bitsCore_eq_some hn hdraw
    have hstream' := hframe.stream.trans hstream
    have hfault' := hframe.fault.trans hfault
    exact ⟨by simp [hstream'], by simp [hfault']⟩
  · exact hs

theorem step_keeps_flagInv {s t : State} (hs : s.FlagInv) (h : step s = .next t) : t.FlagInv := by
  obtain ⟨w, offered, i, rest, -, -, -, hexec⟩ | ⟨packet, response, sends, got, rfl⟩ :=
    step_eq_next h
  · exact exec_keeps_flagInv (s := s.accept rest offered) hs hexec
  · exact hs

/-- Settles O41: each of the three parts of the invariant is kept on its own. -/
theorem stepKeepsTheInvariant : Obligations.StepKeepsTheInvariant := by
  intro s t ⟨hstream, hflags, hport⟩ h
  exact ⟨step_keeps_streamInv hstream h, step_keeps_flagInv hflags h, step_keeps_portInv hport h⟩

end Sys2Proof.Machine
end

section
/-! PROOF. The encoding (30_encoding.md): the words that R55 makes legal are those the decoder classifies, the fields of a response word (R57), and the assembler's bound on a count (R61). -/

namespace Sys2Proof.Machine

/-- The OP values of R52 are the four of R55. -/
theorem exists_eq_opCode_iff (b : BitVec 8) :
    (∃ op, b = opCode op) ↔ b ∈ ([0x01, 0x02, 0x03, 0x04] : List (BitVec 8)) := by
  constructor
  · rintro ⟨op, rfl⟩
    cases op <;> decide
  · intro h
    simp only [List.mem_cons, List.not_mem_nil, or_false] at h
    obtain rfl | rfl | rfl | rfl := h
    · exact ⟨.init, rfl⟩
    · exact ⟨.bits, rfl⟩
    · exact ⟨.block, rfl⟩
    · exact ⟨.status, rfl⟩

theorem opCode_eq_two_iff (op : Op) : opCode op = 0x02 ↔ op = .bits := by
  cases op <;> decide

/-- The decoder accepts exactly the command words that the formula of R55 admits. -/
theorem exists_classify_eq_ok_iff (cw : Word) :
    (∃ op, classify cw = .ok op) ↔
      opField cw ∈ ([0x01, 0x02, 0x03, 0x04] : List (BitVec 8)) ∧ rsvField cw = 0 ∧
        (opField cw = 0x02 ∨ countField cw = 0) := by
  simp only [classify_eq_ok, ← exists_eq_opCode_iff, ← opCode_eq_two_iff]
  constructor
  · rintro ⟨op, hop, hrsv, hcount⟩
    exact ⟨⟨op, hop⟩, hrsv, hop ▸ hcount⟩
  · rintro ⟨⟨op, hop⟩, hrsv, hcount⟩
    exact ⟨op, hop, hrsv, hop ▸ hcount⟩

/-- A packet is illegal by its command word alone (R55). -/
theorem decode_ne_illegal {cw : Word} {op : Op} (hc : classify cw = .ok op) (ws rest : List Word)
    (cw' : Word) (why : Reject) : decode (cw :: ws) ≠ .illegal cw' why rest := by
  obtain ⟨why', herr, -⟩ | ⟨op', -, e⟩ := decode_cons cw ws
  · simp [hc] at herr
  · obtain ⟨-, hi⟩ | ⟨i, hi⟩ := readOperands_cases op' cw ws <;> simp [e, hi]

/-- The step that accepts an illegal command word answers it with the one word of R141. -/
theorem step_of_illegal {s : State} {cw : Word} {offered : List Word} {why : Reject}
    (hc : classify cw = .error why) (hr : s.response = []) (hp : s.rxPacket = [])
    (hs : s.hostSends = cw :: offered) :
    step s = .next ((s.accept [] offered).putResponse [responseWord (opField cw) .illegal]) := by
  have hd : decode [cw] = .illegal cw why [] := by simp [decode, hc]
  rw [step_of_hostSends hr hs, hp]
  simp only [receive, List.nil_append, hd]
  rfl

/-- Settles O3: the formula of R55 is the decoder's test of the command word, so a word that fails it is answered by `step_of_illegal`. -/
theorem illegalWordsAreAnsweredAlone : Obligations.IllegalWordsAreAnsweredAlone := by
  intro cw
  constructor
  · intro hlegal ws rest cw' why
    obtain ⟨op, hc⟩ := (exists_classify_eq_ok_iff cw).mpr hlegal
    exact decode_ne_illegal hc ws rest cw' why
  · intro hillegal s offered hr hp hs
    cases hc : classify cw with
    | ok op => exact absurd ((exists_classify_eq_ok_iff cw).mp ⟨op, hc⟩) hillegal
    | error why =>
      rw [step_of_illegal hc hr hp hs, State.accept, ← hp]
      rfl

/-- Below bit 24 a response word shows the bits of its code, of which there are four, and from bit 24 those of OPE (R57). -/
theorem responseWord_getLsbD (ope : BitVec 8) (rc : ResultCode) {k : Nat} (hk : k < 32) :
    (responseWord ope rc).getLsbD k = if k < 24 then rc.code.getLsbD k else ope.getLsbD (k - 24) := by
  have hhi : k - 24 < 32 := by omega
  simp only [responseWord, BitVec.getLsbD_or, BitVec.getLsbD_shiftLeft, BitVec.getLsbD_setWidth, hk, hhi]
  by_cases hlo : k < 24
  · simp [hlo]
  · have hcode : rc.code.getLsbD k = false := BitVec.getLsbD_of_ge _ _ (by omega)
    simp [hlo, hcode]

/-- Settles O5: each field is a range of bits on one side of bit 24, and no code has a bit at or above 4. -/
theorem responseWordFields : Obligations.ResponseWordFields := by
  intro ope rc
  refine ⟨?_, ?_, ?_⟩ <;> apply BitVec.eq_of_getLsbD_eq <;> intro i hi
  · have hk : 24 + i < 32 := by omega
    simp only [BitVec.getLsbD_extractLsb', responseWord_getLsbD ope rc hk]
    simp [hi]
  · have hk : 4 + i < 32 := by omega
    have hlo : 4 + i < 24 := by omega
    simp only [BitVec.getLsbD_extractLsb', responseWord_getLsbD ope rc hk]
    simp [hlo]
  · have hk : 0 + i < 32 := by omega
    have hlo : i < 24 := by omega
    simp only [BitVec.getLsbD_extractLsb', responseWord_getLsbD ope rc hk]
    simp [hi, hlo]

theorem parseBelow_of_parseNumber {cs : List Char} {v : Nat} (bound : Nat)
    (h : parseNumber cs = some v) : parseBelow bound cs = if v < bound then some v else none := by
  simp [parseBelow, h]

/-- The mnemonic BITS, in any case, reads its count below the bound of the field N (R54, R61). -/
theorem parseTokens_bits {m : List Char} (hm : m.map Char.toUpper = "BITS".toList)
    (digits : List Char) :
    parseTokens [m, digits] = (parseBelow 128 digits).map fun v => .command (.bits v) := by
  have hinit : "BITS".toList ≠ "INIT".toList := by decide
  simp only [parseTokens, hm, hinit, if_true, if_false]

/-- Settles O7: the count is read with the bound 128, which a number passes or fails. -/
theorem assemblerBoundsTheCount : Obligations.AssemblerBoundsTheCount := by
  intro digits v hv
  rw [parseTokens_bits (by decide), parseBelow_of_parseNumber 128 hv]
  constructor
  · intro h
    simp [h]
  · intro h
    simp [Nat.not_lt.mpr h]

end Sys2Proof.Machine
end

section
/-! PROOF. The Core (40_core.md): each word after a quarter-round, which is the twelve steps of R73; the rounds in any order of their quarter-rounds (R74); the initial block, the whole algorithm (R72 to R77), and BLOCK (R79). -/

namespace Sys2Proof.Machine

theorem block_set_getElem (x : Block) (a i : Fin 16) (w : Word) :
    (x.set a w)[i] = if i = a then w else x[i] := by
  simp [Vector.getElem_set, Fin.ext_iff, eq_comm]

theorem block_ext {x y : Block} (h : ∀ i : Fin 16, x[i] = y[i]) : x = y :=
  Vector.ext fun i hi => h ⟨i, hi⟩

/-- The four words of a quarter-round, written back (R73). -/
theorem quarterRound_getElem (x : Block) (a b c d i : Fin 16) :
    (quarterRound x a b c d)[i] =
      if i = d then (quarter x[a] x[b] x[c] x[d]).2.2.2
      else if i = c then (quarter x[a] x[b] x[c] x[d]).2.2.1
      else if i = b then (quarter x[a] x[b] x[c] x[d]).2.1
      else if i = a then (quarter x[a] x[b] x[c] x[d]).1 else x[i] := by
  simp only [quarterRound, block_set_getElem]

/-- Three consecutive steps of R73: add, exclusive or, rotate. -/
def addXorRotate (x : Block) (a b d : Fin 16) (r : Nat) : Block :=
  let x := x.set a (add32 x[a] x[b])
  let x := x.set d (x[d] ^^^ x[a])
  x.set d (rotl32 x[d] r)

/-- The twelve steps are four times the same three. -/
theorem quarterSteps_eq (x : Block) (a b c d : Fin 16) :
    quarterSteps x a b c d =
      addXorRotate (addXorRotate (addXorRotate (addXorRotate x a b d 16) c d b 12) a b d 8) c d b 7 :=
  rfl

theorem addXorRotate_getElem (x : Block) {a d : Fin 16} (b i : Fin 16) (r : Nat) (h : d ≠ a) :
    (addXorRotate x a b d r)[i] =
      if i = d then rotl32 (x[d] ^^^ add32 x[a] x[b]) r
      else if i = a then add32 x[a] x[b] else x[i] := by
  by_cases hd : i = d <;> simp only [addXorRotate, block_set_getElem, hd, h, if_true, if_false]

/-- Settles O17: the twelve steps leave in each of the four words what `quarter` computes for it. -/
theorem quarterRoundIsTheTwelveSteps : Obligations.QuarterRoundIsTheTwelveSteps := by
  intro x a b c d h
  have hrev := List.nodup_reverse.mpr h
  simp only [List.reverse_cons, List.reverse_nil, List.nil_append, List.cons_append, List.nodup_cons,
    List.mem_cons, List.not_mem_nil, not_or, or_false] at h hrev
  obtain ⟨⟨hab, hac, had⟩, ⟨hbc, hbd⟩, hcd, -⟩ := h
  obtain ⟨⟨hdc, hdb, hda⟩, ⟨hcb, hca⟩, hba, -⟩ := hrev
  apply block_ext
  intro i
  rw [quarterRound_getElem, quarterSteps_eq]
  simp only [addXorRotate_getElem _ _ _ _ hda, addXorRotate_getElem _ _ _ _ hbc]
  by_cases hi : i ∈ [a, b, c, d]
  · simp only [List.mem_cons, List.not_mem_nil, or_false] at hi
    obtain rfl | rfl | rfl | rfl := hi <;> simp only [*, quarter, if_true, if_false]
  · simp only [List.mem_cons, List.not_mem_nil, or_false, not_or] at hi
    simp only [hi, if_false]

/-- Settles O18: a word of no index of the four falls through to the block as it was. -/
theorem quarterRoundFrame : Obligations.QuarterRoundFrame := by
  intro x a b c d i hi
  simp only [List.mem_cons, List.not_mem_nil, or_false, not_or] at hi
  simp only [quarterRound_getElem, hi, if_false]

/-- A word after a quarter-round depends on that word and the four it reads. -/
theorem quarterRound_getElem_congr {x y : Block} {a b c d i : Fin 16}
    (h : ∀ j ∈ [a, b, c, d], x[j] = y[j]) (hi : x[i] = y[i]) :
    (quarterRound x a b c d)[i] = (quarterRound y a b c d)[i] := by
  simp only [quarterRound_getElem, h _ (.head _), h _ (.tail _ (.head _)), hi,
    h _ (.tail _ (.tail _ (.head _))), h _ (.tail _ (.tail _ (.tail _ (.head _))))]

/-- The second of two disjoint quarter-rounds reads and writes no word that the first has written. -/
theorem quarterRound_comm (x : Block) {a b c d e f g h : Fin 16}
    (hdisj : [a, b, c, d].Disjoint [e, f, g, h]) :
    quarterRound (quarterRound x a b c d) e f g h =
      quarterRound (quarterRound x e f g h) a b c d := by
  have first {j} (hj : j ∈ [e, f, g, h]) := quarterRoundFrame x a b c d j (hdisj.symm hj)
  have second {j} (hj : j ∈ [a, b, c, d]) := quarterRoundFrame x e f g h j (hdisj hj)
  apply block_ext
  intro i
  by_cases hi : i ∈ [a, b, c, d]
  · rw [quarterRoundFrame _ _ _ _ _ _ (hdisj hi)]
    exact (quarterRound_getElem_congr (fun _ => second) (second hi)).symm
  · rw [quarterRoundFrame _ a b c d i hi]
    exact quarterRound_getElem_congr (fun _ => first) (quarterRoundFrame x a b c d i hi)

/-- Settles O19, by the disjointness of the two halves of the list of eight. -/
theorem disjointQuarterRoundsCommute : Obligations.DisjointQuarterRoundsCommute := by
  intro x a b c d e f g h hnodup
  have hsplit : ([a, b, c, d] ++ [e, f, g, h]).Nodup := hnodup
  exact quarterRound_comm x (List.disjoint_of_nodup_append hsplit)

/-- The four indices of a quarter-round, in the order of its arguments. -/
abbrev Quad := Fin 16 × Fin 16 × Fin 16 × Fin 16

def Quad.indices (q : Quad) : List (Fin 16) := [q.1, q.2.1, q.2.2.1, q.2.2.2]

/-- The quarter-round on a quadruple of indices. -/
def roundOn (x : Block) (q : Quad) : Block := quarterRound x q.1 q.2.1 q.2.2.1 q.2.2.2

/-- The twelve steps of R73 on a quadruple of indices. -/
def stepsOn (x : Block) (q : Quad) : Block := quarterSteps x q.1 q.2.1 q.2.2.1 q.2.2.2

theorem foldl_stepsOn {quads : List Quad} (h : ∀ q ∈ quads, q.indices.Nodup) (x : Block) :
    quads.foldl stepsOn x = quads.foldl roundOn x :=
  List.foldl_ext _ _ _ fun y q hq => (quarterRoundIsTheTwelveSteps y _ _ _ _ (h q hq)).symm

/-- Two quarter-rounds give the same block in either order. -/
def Quad.Commute (p q : Quad) : Prop := ∀ x, roundOn (roundOn x p) q = roundOn (roundOn x q) p

theorem Quad.Commute.symm {p q : Quad} (h : p.Commute q) : q.Commute p := fun x => (h x).symm

theorem Quad.Commute.of_disjoint {p q : Quad} (h : p.indices.Disjoint q.indices) : p.Commute q :=
  fun x => quarterRound_comm x h

/-- The quarter-rounds of one round may run in any order, for their index sets are disjoint (R74). -/
theorem foldl_roundOn_perm {quads round : List Quad} (hperm : quads.Perm round)
    (hdisj : (round.flatMap Quad.indices).Nodup) (x : Block) :
    quads.foldl roundOn x = round.foldl roundOn x := by
  obtain ⟨-, hpairs⟩ := List.nodup_flatMap.mp hdisj
  have hsymm : Std.Symm Quad.Commute := ⟨fun _ _ => Quad.Commute.symm⟩
  have hcomm := List.Pairwise.forall_of_forall (fun _ _ _ => rfl)
    (hpairs.imp Quad.Commute.of_disjoint)
  exact (hperm.symm.foldl_eq' (fun p hp q hq => hcomm hp hq) x).symm

/-- The same in the twelve steps of R73. -/
theorem foldl_stepsOn_perm {quads round : List Quad} (hperm : quads.Perm round)
    (hdisj : (round.flatMap Quad.indices).Nodup) (x : Block) :
    quads.foldl stepsOn x = round.foldl roundOn x := by
  obtain ⟨hquads, -⟩ := List.nodup_flatMap.mp hdisj
  rw [foldl_stepsOn fun q hq => hquads q (hperm.mem_iff.mp hq), foldl_roundOn_perm hperm hdisj]

/-- The index sets of the column round (R74). -/
def columnQuads : List Quad := [(0, 4, 8, 12), (1, 5, 9, 13), (2, 6, 10, 14), (3, 7, 11, 15)]

/-- The index sets of the diagonal round (R74). -/
def diagonalQuads : List Quad := [(0, 5, 10, 15), (1, 6, 11, 12), (2, 7, 8, 13), (3, 4, 9, 14)]

theorem foldl_stepsOn_columnQuads {quads : List Quad} (h : quads.Perm columnQuads) (x : Block) :
    quads.foldl stepsOn x = columnRound x :=
  foldl_stepsOn_perm h (by decide) x

theorem foldl_stepsOn_diagonalQuads {quads : List Quad} (h : quads.Perm diagonalQuads) (x : Block) :
    quads.foldl stepsOn x = diagonalRound x :=
  foldl_stepsOn_perm h (by decide) x

/-- Settles O56: the sixteen indices of either round are distinct. -/
theorem roundsAreTheirQuarterRoundsInAnyOrder : Obligations.RoundsAreTheirQuarterRoundsInAnyOrder :=
  fun x _ => ⟨fun h => foldl_stepsOn_columnQuads h x, fun h => foldl_stepsOn_diagonalQuads h x⟩

/-- The eight quarter-rounds of R77 in the twelve steps are a double-round (R75). -/
theorem foldl_stepsOn_eq_doubleRound (x : Block) :
    (columnQuads ++ diagonalQuads).foldl stepsOn x = doubleRound x := by
  rw [List.foldl_append, foldl_stepsOn_columnQuads (.refl _), foldl_stepsOn_diagonalQuads (.refl _),
    doubleRound]

/-- A repetition may run its first turn before the others. -/
theorem repeat_apply {α : Type} (f : α → α) (k : Nat) (x : α) :
    Nat.repeat f k (f x) = f (Nat.repeat f k x) := by
  induction k with
  | zero => rfl
  | succ k ih => exact congrArg f ih

theorem doubleRounds_eq_repeat (k : Nat) (x : Block) :
    doubleRounds k x = Nat.repeat doubleRound k x := by
  induction k generalizing x with
  | zero => rfl
  | succ k ih => rw [doubleRounds, ih, repeat_apply, Nat.repeat]

theorem key_toList (key : Key) :
    key.toList = [key[0], key[1], key[2], key[3], key[4], key[5], key[6], key[7]] := by
  rw [← Vector.ofFn_getElem (xs := key), Vector.toList_ofFn]
  simp

/-- Settles O16: the eight words of the key stand between the constants and the operands. -/
theorem initialBlockWords : Obligations.InitialBlockWords := by
  intro key nonce counter
  rw [key_toList]
  rfl

/-- Settles O20: the definition of the Core, read at one word. -/
theorem coreAddsTheInitialBlock : Obligations.CoreAddsTheInitialBlock := by
  intro key nonce counter i
  simp [coreBlock, add32]

/-- Settles O57: the words given are the initial block, and ten double-rounds are ten repetitions of the eight quarter-rounds. -/
theorem coreIsTheWholeAlgorithm : Obligations.CoreIsTheWholeAlgorithm := by
  intro key nonce counter s hs i
  have hinit : s = initialBlock key nonce counter :=
    Vector.toList_inj.mp (hs.trans (initialBlockWords key nonce counter).symm)
  have hround := funext foldl_stepsOn_eq_doubleRound
  rw [coreAddsTheInitialBlock, ← hinit, doubleRounds_eq_repeat, ← hround]
  rfl

/-- Settles O21: BLOCK delivers the Core's words behind the response word, with the state as it was. -/
theorem blockAnswersTheCore : Obligations.BlockAnswersTheCore := by
  intro nonce counter s
  have hword : responseWord (opCode .block) .ok = 0x03000000 := by decide
  refine ⟨rfl, ?_⟩
  rw [← hword]
  rfl

end Sys2Proof.Machine
end

section
/-! PROOF. The host's nonce derivation (41_identity.md): when it answers (R91), every bit of its nonce (R90), and the bits that no label reaches (R92). -/

namespace Sys2Proof.Machine

theorem nonceOf_eq_error_iff {label : List Byte} {tid : Word} :
    (∃ e, nonceOf label tid = .error e) ↔ 4 < label.length ∨ 0 ∈ label := by
  unfold nonceOf
  split
  · next hlong => exact iff_of_true ⟨_, rfl⟩ (.inl hlong)
  · next hshort =>
    split
    · next hzero => exact iff_of_true ⟨_, rfl⟩ (.inr hzero)
    · next hnonzero => exact iff_of_false nofun (not_or.mpr ⟨hshort, hnonzero⟩)

theorem nonceOf_eq_ok_iff {label : List Byte} {tid : Word} {nonce : DWord} :
    nonceOf label tid = .ok nonce ↔
      label.length ≤ 4 ∧ 0 ∉ label ∧ mixLabel 0 label (zext64 tid) = nonce := by
  unfold nonceOf
  split
  · next hlong => exact iff_of_false nofun fun ⟨hlen, _, _⟩ => Nat.not_lt_of_le hlen hlong
  · next hshort =>
    split
    · next hzero => exact iff_of_false nofun fun ⟨_, hnonzero, _⟩ => hnonzero hzero
    · next hnonzero => simp only [Except.ok.injEq, Nat.le_of_not_lt hshort, hnonzero,
        not_false_eq_true, true_and]

/-- Settles O50: the two checks of R91, neither of which the empty label fails. -/
theorem nonceDerivationFailures : Obligations.NonceDerivationFailures :=
  fun _ _ => ⟨nonceOf_eq_error_iff, nonceOf_eq_ok_iff.mpr ⟨by simp, by simp, rfl⟩⟩

theorem getLsbD_shl64_byte (b : Byte) (n : Nat) {k : Nat} (hk : k < 64) :
    (shl64 (b.setWidth 64) n).getLsbD k = true ↔ n ≤ k ∧ b.getLsbD (k - n) = true := by
  simp [shl64, hk]

/-- The loop of R90 from position `i` on adds the bits of the remaining label bytes, each at its own position, and no others. -/
theorem getLsbD_mixLabel (i : Nat) (label : List Byte) (nonce : DWord) {k : Nat} (hk : k < 64) :
    (mixLabel i label nonce).getLsbD k = true ↔ nonce.getLsbD k = true ∨
      ∃ j, ∃ h : j < label.length, 4 + (i + j) ≤ k ∧ label[j].getLsbD (k - (4 + (i + j))) = true := by
  induction label generalizing i nonce with
  | nil => simp [mixLabel]
  | cons b bs ih =>
    rw [mixLabel, ih, BitVec.getLsbD_or, Bool.or_eq_true, getLsbD_shl64_byte b _ hk, or_assoc]
    refine or_congr_right (.trans ?_ Nat.or_exists_add_one)
    simp [Nat.add_assoc, Nat.add_comm 1]

/-- Settles O51: the loop starts at position 0 with the test id as the nonce. -/
theorem nonceBits : Obligations.NonceBits := by
  intro label tid nonce h k hk
  obtain ⟨-, -, rfl⟩ := nonceOf_eq_ok_iff.mp h
  simpa [zext64, hk] using getLsbD_mixLabel 0 label (zext64 tid) hk

/-- Byte `i` of the label covers bits 4 + i to 11 + i, and i is at most 3. -/
theorem getLsbD_nonceOf_of_unreached {label : List Byte} {tid : Word} {nonce : DWord}
    (h : nonceOf label tid = .ok nonce) {k : Nat} (hk : k < 4 ∨ 15 ≤ k) :
    nonce.getLsbD k = tid.getLsbD k := by
  obtain ⟨hlen, -, -⟩ := nonceOf_eq_ok_iff.mp h
  rcases Nat.lt_or_ge k 64 with hlt | hge
  · rw [Bool.eq_iff_iff, nonceBits label tid nonce h k hlt]
    refine or_iff_left ?_
    rintro ⟨i, hi, hle, hbit⟩
    have hpast : 8 ≤ k - (4 + i) := by omega
    simp [BitVec.getLsbD_of_ge _ _ hpast] at hbit
  · rw [BitVec.getLsbD_of_ge _ _ hge, BitVec.getLsbD_of_ge _ _ (by omega)]

theorem extractLsb'_nonceOf_of_unreached {label : List Byte} {tid : Word} {nonce : DWord}
    (h : nonceOf label tid = .ok nonce) {start len : Nat} (hrange : start + len ≤ 4 ∨ 15 ≤ start) :
    nonce.extractLsb' start len = tid.extractLsb' start len := by
  refine BitVec.eq_of_getLsbD_eq fun j hj => ?_
  rw [BitVec.getLsbD_extractLsb', BitVec.getLsbD_extractLsb',
    getLsbD_nonceOf_of_unreached h (by omega)]

/-- Settles O52: all three ranges are unreached, and the test id has no bit above 31. -/
theorem nonceBitsTheLabelCannotReach : Obligations.NonceBitsTheLabelCannotReach := by
  intro label tid nonce h
  have hhigh : tid.extractLsb' 32 32 = (0 : Word) :=
    BitVec.eq_of_getLsbD_eq fun j hj => by simp
  exact ⟨(extractLsb'_nonceOf_of_unreached h (by decide)).trans hhigh,
    extractLsb'_nonceOf_of_unreached h (by decide), extractLsb'_nonceOf_of_unreached h (by decide)⟩

end Sys2Proof.Machine
end

section
/-! PROOF. A draw (42_reservoir.md R105, R106): the turns of BitsCore as a relation, the value they give, and what BITS answers with it. -/

namespace Sys2Proof.Machine

/-- The turns of a draw that gives a value (R105, R117), without the loop's bound: from the result `r` with `n` bits to go in `s`, the draw ends with `q` in `t`. -/
inductive DrawsTo (key : Key) : DWord → Nat → State → DWord → State → Prop where
  /-- Fewer bits are wanted than there are. -/
  | done {r : DWord} {n : Nat} {s : State} : n < s.avail.val →
      DrawsTo key r n s (appendBits r n s.res) (s.consume n)
  /-- The available bits are taken, and the draw goes on after a refill. -/
  | turn {r q : DWord} {n : Nat} {s t u : State} : s.avail.val ≤ n → refill key s = some u →
      DrawsTo key (appendBits r s.avail.val s.res) (n - s.avail.val) u q t → DrawsTo key r n s q t

/-- A loop with turns enough ends by its own test. -/
theorem drawsTo_of_bitsLoop {key : Key} (fuel : Nat) : ∀ {r q : DWord} {n : Nat} {s t : State},
    refillCount n s.avail.val ≤ fuel → bitsLoop key fuel r n s = some (q, t) →
    DrawsTo key r n s q t := by
  have done : ∀ (fuel : Nat) {r q : DWord} {n : Nat} {s t : State}, n < s.avail.val →
      bitsLoop key fuel r n s = some (q, t) → DrawsTo key r n s q t := by
    intro fuel r q n s t hn h
    cases (bitsLoop_done hn).symm.trans h
    exact .done hn
  induction fuel with
  | zero => exact fun hturns => done 0 (lt_of_refillCount_eq_zero _ _ hturns)
  | succ fuel ih =>
    intro r q n s t hturns h
    rcases Nat.lt_or_ge n s.avail.val with hn | hn
    · exact done _ hn h
    cases hrefill : refill key s with
    | none => simp [bitsLoop_none hn hrefill] at h
    | some u =>
      rw [bitsLoop_turn hn hrefill] at h
      rw [refillCount_of_le _ _ hn, Nat.add_comm, Nat.succ_le_succ_iff] at hturns
      exact .turn hn hrefill (ih (by rwa [refill_avail hrefill]) h)

theorem drawsTo_of_bitsCore {key : Key} {n : Nat} {r : DWord} {s t : State} (hn : n ≤ 64)
    (h : bitsCore key n s = some (r, t)) : DrawsTo key 0 n s r t :=
  drawsTo_of_bitsLoop 3 (refillCount_le_three n _ hn) h

/-- A draw puts its value behind the bits it starts from (R112), and 64 bits hold both. -/
theorem DrawsTo.toNat_eq {key : Key} {n : Nat} {r q : DWord} {s t : State} (h : DrawsTo key r n s q t) :
    ∀ {m : Nat}, r.toNat < 2 ^ m → m + n ≤ 64 →
      q.toNat = r.toNat * 2 ^ n + drawnValue key n s ∧ q.toNat < 2 ^ (m + n) := by
  induction h with
  | @done r n s hn =>
    intro m hr hm
    rw [drawnValue, if_pos hn]
    exact appendBits_toNat r n m s.res hr hm (by omega)
  | @turn r q n s t u hn hrefill _ ih =>
    intro m hr hm
    obtain ⟨happend, hbound⟩ := appendBits_toNat r s.avail.val m s.res hr (by omega) (by omega)
    obtain ⟨hq, hlt⟩ := ih hbound (by omega)
    have hsplit : m + s.avail.val + (n - s.avail.val) = m + n := by omega
    have hpow : 2 ^ n = 2 ^ s.avail.val * 2 ^ (n - s.avail.val) := by
      rw [← Nat.pow_add, Nat.add_sub_cancel' hn]
    refine ⟨?_, hsplit ▸ hlt⟩
    rw [hq, happend, drawnValue_turn hn (by omega) hrefill, hpow]
    ring

/-- A draw that gives a value gives the one of the closed form. -/
theorem bitsCore_toNat {key : Key} {n : Nat} {r : DWord} {s t : State} (hn : n ≤ 64)
    (h : bitsCore key n s = some (r, t)) : r.toNat = drawnValue key n s ∧ r.toNat < 2 ^ n := by
  simpa using (drawsTo_of_bitsCore hn h).toNat_eq (m := 0) (by decide) (by omega)

/-- A draw that does not exhaust the stream gives a value. -/
theorem exists_bitsCore_eq_some (key : Key) {n : Nat} {s : State} (hn : n ≤ 64)
    (hex : exhausts n s = false) : ∃ r t, bitsCore key n s = some (r, t) := by
  have hturns := refillCount_le_three n s.avail.val hn
  obtain ⟨r, t, h, -⟩ := (bitsLoop_draws key 3 0 n s hturns (by omega)).2 hex
  exact ⟨r, t, h⟩

/-- BITS on a stream without a fault, when its draw gives a value (R106). -/
theorem bitsCmd_of_draw {key : Key} {n : Nat} {r : DWord} {s t : State} (hn : n ≤ 64)
    (hstream : s.stream = true) (hfault : s.fault = false) (h : bitsCore key n s = some (r, t)) :
    bitsCmd key n s = (t, ⟨0x02, .ok, split64 r⟩) := by
  simp [bitsCmd, Nat.not_lt.mpr hn, hstream, hfault, h, respondOk, opCode]

/-- BITS on a stream without a fault, when its draw exhausts the stream (R104). -/
theorem bitsCmd_of_exhausted {key : Key} {n : Nat} {s : State} (hn : n ≤ 64)
    (hstream : s.stream = true) (hfault : s.fault = false) (h : bitsCore key n s = none) :
    bitsCmd key n s = exhaust s := by
  simp [bitsCmd, Nat.not_lt.mpr hn, hstream, hfault, h]

theorem exec_bits_of_draw {n : Nat} {r : DWord} {s t : State} (hn : n ≤ 64)
    (hstream : s.stream = true) (hfault : s.fault = false)
    (h : bitsCore Config.key n s = some (r, t)) :
    exec (.bits n) s = .next (t.putResponse (0x02000000 :: split64 r)) := by
  have hword : responseWord 0x02 .ok = 0x02000000 := by decide
  refine deliver_eq_next.mpr ?_
  rw [bitsCmd_of_draw hn hstream hfault h, ← hword, Response.words_eq]

theorem exec_bits_of_exhausted {n : Nat} {s : State} (hn : n ≤ 64)
    (hstream : s.stream = true) (hfault : s.fault = false)
    (h : bitsCore Config.key n s = none) :
    exec (.bits n) s = .next (s.setFault.putResponse [0x02000005]) := by
  refine deliver_eq_next.mpr ?_
  rw [bitsCmd_of_exhausted hn hstream hfault h, exhaust_words, exhaust_fst]

/-- Settles O31: the registers are `DrawRegisters`, the value is `bitsCore_toNat`, the rest is `DrawFrame`. -/
theorem bitsDrawInClosedForm : Obligations.BitsDrawInClosedForm := by
  intro n s hn hstream hfault hex
  obtain ⟨r, t, hdraw⟩ := exists_bitsCore_eq_some Config.key hn hex
  obtain ⟨-, hregs, hframe⟩ := bitsCore_eq_some hn hdraw
  obtain ⟨hvalue, hbound⟩ := bitsCore_toNat hn hdraw
  refine ⟨_, lo32 r, hi32 r, exec_bits_of_draw hn hstream hfault hdraw, rfl, ?_, ?_,
    hregs.generated, hregs.kept, hregs.within, hregs.past, hframe.nonce,
    hframe.stream.trans hstream, hframe.fault.trans hfault, hframe.rxPacket, hframe.hostSends,
    hframe.hostGot⟩
  · rw [join64_lo32_hi32, hvalue]
  · rw [join64_lo32_hi32]
    exact hbound

end Sys2Proof.Machine
end

section
/-! PROOF. A draw from a state of R32 (R31, R114, R115): its value is the next keystream bits, and the stream position moves past them. -/

namespace Sys2Proof.Machine

/-- The low `m` bits of a number, summed bit by bit. -/
theorem sum_testBit_range (x m : Nat) :
    ((List.range m).map fun k => (x.testBit k).toNat * 2 ^ k).sum = x % 2 ^ m := by
  induction m with
  | zero => simp [Nat.mod_one]
  | succ m ih =>
    rw [List.range_succ, List.map_append, List.sum_append, ih, Nat.mod_pow_succ, ← Nat.toNat_testBit]
    simp [Nat.mul_comm]

theorem State.Running.ctr_pos {key : Key} {s : State} (hrun : s.Running key) : 0 < s.ctr.toNat := by
  obtain ⟨hctr, -⟩ := hrun
  exact Nat.pos_of_ne_zero fun h0 => hctr (BitVec.eq_of_toNat_eq (by simpa using h0))

/-- The bits of RES are the keystream bits from the stream position on (R25, R31, R114). -/
theorem keystreamBit_streamPos_add {key : Key} {s : State} (hrun : s.Running key) {k : Nat}
    (hk : k < s.avail.val) : keystreamBit key s.nonce (streamPos s + k) = s.res.getLsbD k := by
  have hpos := hrun.ctr_pos
  obtain ⟨hctr, hcur, -, hblock, hres⟩ := hrun
  have hP : streamPos s + k =
      512 * (s.ctr.toNat - 1) + (32 * (s.cur.val - 1) + (32 - s.avail.val + k)) := by
    rw [streamPos, if_neg hctr]; omega
  have hcounter : BitVec.ofNat 64 ((streamPos s + k) / 512) = s.ctr - 1 := by
    have hdiv : (streamPos s + k) / 512 = s.ctr.toNat - 1 := by omega
    have hlt := s.ctr.isLt
    rw [hdiv]
    apply BitVec.eq_of_toNat_eq
    rw [BitVec.toNat_sub_of_le (by simp [BitVec.le_def]; omega)]
    simp
    omega
  have hword : (streamPos s + k) / 32 % 16 = s.cur.val - 1 := by omega
  have hbit : (streamPos s + k) % 32 = 32 - s.avail.val + k := by omega
  simp only [keystreamBit, hcounter, hword, hbit, hres, hblock, shr32, BitVec.getLsbD_ushiftRight]

/-- A segment within the reservoir is the low bits of RES (R115). -/
theorem segmentValue_streamPos {key : Key} {s : State} (hrun : s.Running key) {m : Nat}
    (hm : m ≤ s.avail.val) : segmentValue key s.nonce (streamPos s) m = s.res.toNat % 2 ^ m := by
  rw [segmentValue, ← sum_testBit_range]
  refine congrArg List.sum (List.map_congr_left fun k hk => ?_)
  have hk := List.mem_range.1 hk
  rw [keystreamBit_streamPos_add hrun (by omega), BitVec.testBit_toNat]

/-- The first segment of a draw ends with the reservoir (R115). -/
theorem segmentLength_streamPos {key : Key} {s : State} (hrun : s.Running key) (n : Nat) :
    segmentLength (streamPos s) n = min n s.avail.val := by
  obtain ⟨hctr, hcur, havail, -⟩ := hrun
  rw [segmentLength, streamPos, if_neg hctr]
  omega

@[simp] theorem drawSegments_zero_count (key : Key) (nonce : DWord) (fuel p : Nat) :
    drawSegments key nonce fuel p 0 = 0 := by
  cases fuel <;> rfl

/-- A nonempty draw of a Running state takes its first segment from RES (R115). -/
theorem drawSegments_streamPos {key : Key} {s : State} (hrun : s.Running key) {fuel n : Nat}
    (hn : n ≠ 0) : drawSegments key s.nonce (fuel + 1) (streamPos s) n =
      s.res.toNat % 2 ^ (min n s.avail.val) * 2 ^ (n - min n s.avail.val) +
        drawSegments key s.nonce fuel (streamPos s + min n s.avail.val) (n - min n s.avail.val) := by
  rw [drawSegments, if_neg hn, segmentLength_streamPos hrun,
    segmentValue_streamPos hrun (Nat.min_le_right _ _)]

/-- The position counts the bits of the blocks generated, less those not consumed yet, in both forms (R31). -/
theorem streamPos_eq {key : Key} {s : State} (hs : s.StreamInv key) :
    streamPos s + 512 + s.avail.val = 512 * s.ctr.toNat + 32 * s.cur.val := by
  rcases hs with ⟨hctr, hcur, havail, -⟩ | hrun
  · simp [streamPos, hctr, hcur, havail]
  · have hpos := hrun.ctr_pos
    obtain ⟨hctr, hcur, -⟩ := hrun
    rw [streamPos, if_neg hctr]
    omega

/-- A draw of `n` bits moves the stream position by `n` (R31). -/
theorem streamPos_bitsCore {key : Key} {n : Nat} {r : DWord} {s t : State} (hn : n ≤ 64)
    (hs : s.StreamInv key) (h : bitsCore key n s = some (r, t)) :
    streamPos t = streamPos s + n := by
  obtain ⟨hex, hregs, -⟩ := bitsCore_eq_some hn h
  have hpos := streamPos_eq hs
  have hpos' := streamPos_eq (.inr (bitsCore_running hn hs h))
  have htaken : 512 * t.ctr.toNat + 32 * t.cur.val =
      512 * s.ctr.toNat + 32 * s.cur.val + 32 * refillCount n s.avail.val := by
    rcases Nat.lt_or_ge (16 - s.cur.val) (refillCount n s.avail.val) with hgen | hkept
    · obtain ⟨hctr, -, hcur⟩ := hregs.generated hgen
      have hmax : s.ctr ≠ BitVec.allOnes 64 := fun hmax => by simp [exhausts, hmax, hgen] at hex
      rw [hctr, toNat_add_one_of_ne_allOnes hmax]
      omega
    · obtain ⟨hctr, -, hcur⟩ := hregs.kept hkept
      rw [hctr]
      omega
  rcases Nat.lt_or_ge n s.avail.val with hin | hpast
  · have havail := (hregs.within hin).1
    have hturns := refillCount_of_lt n _ hin
    omega
  · have havail := (hregs.past hpast).1
    have hturns : refillCount n s.avail.val = 1 + (n - s.avail.val) / 32 := by
      rw [refillCount, if_neg (by omega)]
    omega

theorem appendBits_no_bits (r : DWord) (res : Word) : appendBits r 0 res = r := by
  simp [appendBits, shl64, mask, zext64]

theorem State.consume_zero (s : State) : s.consume 0 = s := by
  simp [State.consume, shr32]

/-- With no bits to go and some available, the loop gives its result as it is and writes nothing. -/
theorem bitsLoop_no_bits {key : Key} {fuel : Nat} {r : DWord} {s : State} (h : 0 < s.avail.val) :
    bitsLoop key fuel r 0 s = some (r, s) := by
  rw [bitsLoop_done h, bitsFinish, appendBits_no_bits, State.consume_zero]

/-- A draw of exactly the bits available is one refill after them (R108, R110). -/
theorem bitsCore_avail {key : Key} {s t : State} (h : refill key s = some t) :
    bitsCore key s.avail.val s = some (appendBits 0 s.avail.val s.res, t) := by
  have hfull : 0 < t.avail.val := by rw [refill_avail h]; decide
  rw [bitsCore, bitsLoop_turn (Nat.le_refl _) h, Nat.sub_self, bitsLoop_no_bits hfull]

theorem State.Fresh.avail_val {s : State} (hs : s.Fresh) : s.avail.val = 0 := by
  obtain ⟨-, -, havail, -⟩ := hs
  rw [havail]
  rfl

/-- A refill of a state of R32 leaves it Running, at the end of the bits it had available. -/
theorem refill_running {key : Key} {s t : State} (hs : s.StreamInv key) (h : refill key s = some t) :
    t.Running key ∧ streamPos t = streamPos s + s.avail.val :=
  have havail : s.avail.val ≤ 64 := by omega
  ⟨bitsCore_running havail hs (bitsCore_avail h), streamPos_bitsCore havail hs (bitsCore_avail h)⟩

/-- In a Running state the value of a draw from RES and the words taken is that of the segments of R115, one segment a turn. -/
theorem DrawsTo.drawnValue_eq {key : Key} {n : Nat} {r q : DWord} {s t : State}
    (h : DrawsTo key r n s q t) : ∀ {fuel : Nat}, s.Running key → n ≤ 64 → n ≤ fuel →
      drawnValue key n s = drawSegments key s.nonce fuel (streamPos s) n := by
  induction h with
  | @done r n s hn =>
    intro fuel hrun _ hfuel
    rw [drawnValue, if_pos hn]
    cases n with
    | zero => simp [Nat.mod_one]
    | succ n =>
      obtain ⟨k, rfl⟩ : ∃ k, fuel = k + 1 := ⟨fuel - 1, by omega⟩
      rw [drawSegments_streamPos hrun n.succ_ne_zero, Nat.min_eq_left (by omega)]
      simp
  | @turn r q n s t u hn hrefill _ ih =>
    intro fuel hrun hn64 hfuel
    have ⟨_, _, havail, _⟩ := hrun
    obtain ⟨k, rfl⟩ : ∃ k, fuel = k + 1 := ⟨fuel - 1, by omega⟩
    obtain ⟨hrun', hpos⟩ := refill_running (.inr hrun) hrefill
    have hrest := ih (fuel := k) hrun' (by omega) (by omega)
    rw [(refill_frame hrefill).nonce, hpos] at hrest
    rw [drawnValue_turn hn hn64 hrefill, hrest, drawSegments_streamPos hrun (by omega),
      Nat.min_eq_right hn]

/-- The value of a draw in a state of R32 is the closed form of R115; a Fresh state first takes word 0, at the same position. -/
theorem bitsCore_toNat_keystream {key : Key} {n : Nat} {r : DWord} {s t : State} (hn : n ≤ 64)
    (hs : s.StreamInv key) (h : bitsCore key n s = some (r, t)) :
    r.toNat = drawValue key s.nonce (streamPos s) n := by
  have hdraw := drawsTo_of_bitsCore hn h
  rw [(bitsCore_toNat hn h).1, drawValue]
  rcases hs with hfresh | hrun
  · have havail := hfresh.avail_val
    cases hdraw with
    | done hlt => simp [havail] at hlt
    | @turn _ _ _ _ _ u hle hrefill hrest =>
      obtain ⟨hrun, hpos⟩ := refill_running (.inl hfresh) hrefill
      have hvalue := hrest.drawnValue_eq (fuel := n) hrun (by omega) (by omega)
      rw [(refill_frame hrefill).nonce, hpos] at hvalue
      rw [drawnValue_turn hle hn hrefill, hvalue]
      simp [havail, Nat.mod_one]
  · exact hdraw.drawnValue_eq hrun hn (Nat.le_refl n)

theorem streamPos_putResponse (s : State) (ws : List Word) :
    streamPos (s.putResponse ws) = streamPos s := rfl

/-- Settles O32: the value of a draw is that of the segments, and its registers put the position `n` bits further. -/
theorem bitsDrawsTheKeystream : Obligations.BitsDrawsTheKeystream := by
  intro n s hs hn hstream hfault hex
  obtain ⟨r, t, hdraw⟩ := exists_bitsCore_eq_some Config.key hn hex
  refine ⟨_, lo32 r, hi32 r, exec_bits_of_draw hn hstream hfault hdraw, rfl, ?_,
    (streamPos_putResponse t _).trans (streamPos_bitsCore hn hs hdraw)⟩
  rw [join64_lo32_hi32, bitsCore_toNat_keystream hn hs hdraw]

end Sys2Proof.Machine
end

section
/-! PROOF. Sequences of draws (R116): each advances the stream by its count and answers from there. -/

namespace Sys2Proof.Machine

theorem responses_append (key : Key) (is js : List Instr) : ∀ s : State,
    responses key s (is ++ js) = responses key s is ++ responses key (finalState key s is) js := by
  induction is with
  | nil => exact fun s => rfl
  | cons i is ih => exact fun s => congrArg (_ :: ·) (ih _)

/-- A BITS that answers OK has drawn. -/
theorem bitsCmd_of_ok {key : Key} {n : Nat} {s : State} (h : (bitsCmd key n s).2.rc = .ok) :
    n ≤ 64 ∧ ∃ r t, bitsCore key n s = some (r, t) ∧ bitsCmd key n s = (t, ⟨0x02, .ok, split64 r⟩) := by
  obtain ⟨-, e⟩ | ⟨-, -, e⟩ | ⟨-, -, -, e⟩ | ⟨-, -, -, -, e⟩ | ⟨hn, -, -, r, t, hdraw, e⟩ :=
    bitsCmd_cases key n s
  · simp [e] at h
  · simp [e] at h
  · simp [e] at h
  · simp [e] at h
  · exact ⟨hn, r, t, hdraw, e⟩

/-- `t` is a state of R32 of the same stream as `s`, `n` bits further. -/
structure State.Advanced (key : Key) (s t : State) (n : Nat) : Prop where
  streamForm : t.StreamInv key
  nonce : t.nonce = s.nonce
  position : streamPos t = streamPos s + n

theorem State.StreamInv.advanced_zero {key : Key} {s : State} (hs : s.StreamInv key) :
    s.Advanced key s 0 :=
  ⟨hs, rfl, rfl⟩

theorem State.Advanced.trans {key : Key} {s t u : State} {m n : Nat} (h : s.Advanced key t m)
    (h' : t.Advanced key u n) : s.Advanced key u (m + n) :=
  ⟨h'.streamForm, h'.nonce.trans h.nonce, by rw [h'.position, h.position, Nat.add_assoc]⟩

/-- A BITS that answers OK in a state of R32 answers the next `n` keystream bits and consumes them. -/
theorem bitsCmd_advances {key : Key} {n : Nat} {s : State} (hs : s.StreamInv key)
    (h : (bitsCmd key n s).2.rc = .ok) :
    s.Advanced key (bitsCmd key n s).1 n ∧ ∃ r : DWord,
      (bitsCmd key n s).2 = ⟨0x02, .ok, split64 r⟩ ∧
      r.toNat = drawValue key s.nonce (streamPos s) n := by
  obtain ⟨hn, r, t, hdraw, e⟩ := bitsCmd_of_ok h
  obtain ⟨-, -, hframe⟩ := bitsCore_eq_some hn hdraw
  rw [e]
  exact ⟨⟨.inr (bitsCore_running hn hs hdraw), hframe.nonce, streamPos_bitsCore hn hs hdraw⟩,
    r, rfl, bitsCore_toNat_keystream hn hs hdraw⟩

/-- Draws that all answer OK consume the sum of their counts (R116 (a)). -/
theorem finalState_draws_advanced {key : Key} (counts : List Nat) : ∀ {s : State}, s.StreamInv key →
    (∀ r ∈ responses key s (draws counts), r.rc = .ok) →
    s.Advanced key (finalState key s (draws counts)) counts.sum := by
  induction counts with
  | nil => exact fun hs _ => hs.advanced_zero
  | cons n counts ih =>
    intro s hs hok
    obtain ⟨hfirst, hrest⟩ := List.forall_mem_cons.1 hok
    obtain ⟨hadv, -⟩ := bitsCmd_advances hs hfirst
    rw [List.sum_cons]
    exact hadv.trans (ih hadv.streamForm hrest)

/-- Settles O46: the draws before the last advance the state by their sum, and the last answers from there. -/
theorem drawsConsumeTheirSum : Obligations.DrawsConsumeTheirSum := by
  intro key s counts n hs hok
  have hsplit : responses key s (draws (counts ++ [n])) = responses key s (draws counts) ++
      [(bitsCmd key n (finalState key s (draws counts))).2] := by
    rw [draws, List.map_append]
    exact responses_append key _ _ s
  rw [hsplit] at hok ⊢
  obtain ⟨hbefore, hlast⟩ := List.forall_mem_append.1 hok
  have hadv := finalState_draws_advanced counts hs hbefore
  obtain ⟨-, r, hanswer, hvalue⟩ := bitsCmd_advances hadv.streamForm (hlast _ (List.mem_singleton_self _))
  refine ⟨hadv.position, lo32 r, hi32 r, ?_, ?_⟩
  · rw [List.getLast?_concat, hanswer]
    rfl
  · rw [join64_lo32_hi32, hvalue, hadv.nonce, hadv.position]

/-- A draw of one bit is that keystream bit (R115). -/
theorem drawValue_one (key : Key) (nonce : DWord) (p : Nat) :
    drawValue key nonce p 1 = (keystreamBit key nonce p).toNat := by
  have hlen : segmentLength p 1 = 1 := by rw [segmentLength]; omega
  simp [drawValue, drawSegments, hlen, segmentValue]

theorem split64_of_toNat_eq_bool {r : DWord} {b : Bool} (h : r.toNat = b.toNat) :
    split64 r = [if b then 1 else 0, 0] := by
  obtain rfl : r = BitVec.ofNat 64 b.toNat := BitVec.eq_of_toNat_eq (by cases b <;> simp [h])
  cases b <;> decide

/-- Settles O47: each draw answers the bit at its position and moves the position by 1. -/
theorem oneBitDrawsAreTheKeystream : Obligations.OneBitDrawsAreTheKeystream := by
  intro key s count
  induction count generalizing s with
  | zero => exact fun _ _ => rfl
  | succ count ih =>
    intro hs hok
    obtain ⟨hfirst, hrest⟩ := List.forall_mem_cons.1 hok
    obtain ⟨hadv, r, hanswer, hvalue⟩ := bitsCmd_advances hs hfirst
    rw [drawValue_one] at hvalue
    have hrest := ih _ hadv.streamForm hrest
    rw [hadv.nonce, hadv.position] at hrest
    rw [List.range_succ_eq_map, List.map_cons, List.map_map]
    refine congrArg₂ List.cons ?_ (hrest.trans (List.map_congr_left fun k _ => ?_))
    · exact hanswer.trans (by rw [split64_of_toNat_eq_bool hvalue, Nat.add_zero])
    · rw [Function.comp_apply, Nat.add_assoc, Nat.add_comm 1 k]

end Sys2Proof.Machine
end

section
/-! PROOF. The loop of BitsCore without its bound (R105, R117), the cases of Refill (R101, R102), INIT (R107), and BITS above 64 (R111). -/

namespace Sys2Proof.Machine

/-- A turn more changes nothing when the loop has turns enough. -/
theorem bitsLoop_fuel_succ {key : Key} (fuel : Nat) : ∀ {r : DWord} {n : Nat} {s : State},
    refillCount n s.avail.val ≤ fuel → bitsLoop key (fuel + 1) r n s = bitsLoop key fuel r n s := by
  induction fuel with
  | zero =>
    intro r n s hturns
    have hn := lt_of_refillCount_eq_zero _ _ hturns
    rw [bitsLoop_done hn, bitsLoop_done hn]
  | succ fuel ih =>
    intro r n s hturns
    rcases Nat.lt_or_ge n s.avail.val with hn | hn
    · rw [bitsLoop_done hn, bitsLoop_done hn]
    cases hrefill : refill key s with
    | none => rw [bitsLoop_none hn hrefill, bitsLoop_none hn hrefill]
    | some u =>
      rw [refillCount_of_le _ _ hn, Nat.add_comm, Nat.succ_le_succ_iff] at hturns
      rw [bitsLoop_turn hn hrefill, bitsLoop_turn hn hrefill, ih (by rwa [refill_avail hrefill])]

/-- Settles O25: after one turn at most two are left, so a bound of 2 and one of 3 give the same. -/
theorem bitsLoopEndsByItsOwnTest : Obligations.BitsLoopEndsByItsOwnTest := by
  intro key r n s hn64
  split
  · next hn =>
    cases hrefill : refill key s with
    | none => rw [bitsLoop_none hn hrefill]
    | some u =>
      have hturns := refillCount_le_three n s.avail.val hn64
      rw [refillCount_of_le _ _ hn, Nat.add_comm, Nat.succ_le_succ_iff] at hturns
      rw [bitsLoop_turn hn hrefill]
      exact (bitsLoop_fuel_succ 2 (by rwa [refill_avail hrefill])).symm
  · next hn => exact bitsLoop_done (Nat.lt_of_not_le hn)

theorem refill_of_lt {key : Key} {s : State} {i : Fin 16} (hcur : s.cur.val = i.val) :
    refill key s = some (s.takeWord i) := by
  have hlt : s.cur.val < 16 := hcur ▸ i.isLt
  obtain rfl : i = ⟨s.cur.val, hlt⟩ := Fin.ext hcur.symm
  rw [refill, dif_pos hlt]

theorem refill_of_spent {key : Key} {s : State} (hcur : s.cur = 16) (hctr : s.ctr ≠ BitVec.allOnes 64) :
    refill key s = some ((s.generate key).takeWord 0) := by
  rw [refill, dif_neg (by simp [hcur]), if_neg hctr]

theorem refill_of_last {key : Key} {s : State} (hcur : s.cur = 16) (hctr : s.ctr = BitVec.allOnes 64) :
    refill key s = none := by
  rw [refill, dif_neg (by simp [hcur]), if_pos hctr]

/-- Settles O24: the three cases of R102. -/
theorem refillTakesTheNextWord : Obligations.RefillTakesTheNextWord :=
  fun _ _ => ⟨fun _ => refill_of_lt, refill_of_spent, refill_of_last⟩

/-- Settles O23: INIT's writes are those of `startStream`. -/
theorem initStartsAStream : Obligations.InitStartsAStream := by
  intro nonce s
  have hexec : exec (.init nonce) s = .next ((s.startStream nonce).putResponse [0x01000000]) :=
    deliver_eq_next.mpr (by rw [initCmd_words]; rfl)
  exact ⟨rfl, hexec⟩

/-- Settles O26: the first check of R147. -/
theorem bitsAboveSixtyFourIsUsage : Obligations.BitsAboveSixtyFourIsUsage := by
  intro n s hn
  have hcmd : bitsCmd Config.key n s = abort (opCode .bits) .usage s := if_pos hn
  have hword : responseWord (opCode .bits) .usage = 0x02000002 := by decide
  refine deliver_eq_next.mpr ?_
  rw [hcmd, abort_fst, abort_snd, Response.words_eq, hword]
  rfl

end Sys2Proof.Machine
end

section
/-! PROOF. The draws at the edges of the reservoir: exactly the bits available (R110), BITS 0 (R108), BITS 64 on a fresh stream (R109). -/

namespace Sys2Proof.Machine

/-- The data words of a draw from RES alone. -/
theorem split64_appendBits_zero (k : Nat) (res : Word) :
    split64 (appendBits 0 k res) = [res &&& mask k, 0] := by
  have hjoin : appendBits 0 k res = join64 (res &&& mask k) 0 := by
    simp [appendBits, join64, shl64, zext64]
  rw [hjoin, split64_join64]

/-- A draw of exactly the bits available (R110), on a stream without a fault. -/
theorem exec_bits_avail {s t : State} (hstream : s.stream = true) (hfault : s.fault = false)
    (h : refill Config.key s = some t) :
    exec (.bits s.avail.val) s =
      .next (t.putResponse [0x02000000, s.res &&& mask s.avail.val, 0]) := by
  rw [exec_bits_of_draw (by omega) hstream hfault (bitsCore_avail h), split64_appendBits_zero]

/-- Settles O35: the draw is one refill, in its three cases. -/
theorem drawToTheEndRefillsEagerly : Obligations.DrawToTheEndRefillsEagerly := by
  intro s hstream hfault _
  refine ⟨fun i hcur => exec_bits_avail hstream hfault (refill_of_lt hcur),
    fun hcur hctr => exec_bits_avail hstream hfault (refill_of_spent hcur hctr),
    fun hcur hctr => ?_⟩
  have hnone : bitsCore Config.key s.avail.val s = none :=
    bitsLoop_none (Nat.le_refl _) (refill_of_last hcur hctr)
  exact exec_bits_of_exhausted (by omega) hstream hfault hnone

/-- A Fresh stream's first refill takes word 0 of block 0 (R102). -/
theorem State.Fresh.refill {key : Key} {s : State} (hs : s.Fresh) :
    refill key s = some ((s.generate key).takeWord 0) := by
  obtain ⟨hctr, hcur, -, -⟩ := hs
  exact refill_of_spent hcur (by rw [hctr]; decide)

/-- Settles O33: with bits available the loop ends at once; in the Fresh state, where none are, BITS 0 is a draw of exactly the bits available. -/
theorem bitsZero : Obligations.BitsZero := by
  intro s hstream hfault
  have hwithin : 1 ≤ s.avail.val →
      exec (.bits 0) s = .next (s.putResponse [0x02000000, 0, 0]) := fun havail =>
    exec_bits_of_draw (r := 0) (by omega) hstream hfault (bitsLoop_no_bits havail)
  have hfresh : s.Fresh → exec (.bits 0) s =
      .next (((s.generate Config.key).takeWord 0).putResponse [0x02000000, 0, 0]) := fun hs => by
    have hdraw := exec_bits_avail hstream hfault hs.refill
    rw [hs.avail_val] at hdraw
    simpa [mask] using hdraw
  refine ⟨hwithin, fun hs => ?_, ?_⟩
  · rw [hfresh hs, State.generate, hs.1]
    rfl
  · rintro (havail | hs)
    · exact ⟨_, hwithin havail, streamPos_putResponse s _⟩
    · have hpos := (refill_running (key := Config.key) (.inl hs) hs.refill).2
      rw [hs.avail_val] at hpos
      exact ⟨_, hfresh hs, hpos⟩

/-- A word appended whole. -/
theorem appendBits_word (r : DWord) (w : Word) : appendBits r 32 w = shl64 r 32 ||| zext64 w := by
  have hmask : mask 32 = BitVec.allOnes 32 := by decide
  rw [appendBits, hmask, BitVec.and_allOnes]

/-- A first word appended to nothing is the high half, and a second one the low half. -/
theorem appendBits_two_words (hi lo : Word) :
    appendBits (appendBits 0 32 hi) 32 lo = join64 lo hi := by
  simp [appendBits_word, join64, shl64]

/-- A turn that takes the whole of RES and the next word of WBUF (R101, R105). -/
theorem bitsLoop_turn_word {key : Key} {fuel n : Nat} {r : DWord} {s : State} (i : Fin 16)
    (hfull : s.avail = 32) (hcur : s.cur.val = i.val) :
    bitsLoop key (fuel + 1) r (32 + n) s =
      bitsLoop key fuel (appendBits r 32 s.res) n (s.takeWord i) := by
  have havail : s.avail.val = 32 := by rw [hfull]; rfl
  rw [bitsLoop_turn (by omega) (refill_of_lt hcur), havail, Nat.add_sub_cancel_left]

/-- BITS 64 on a fresh stream is three turns, which take words 0, 1 and 2 of block 0 (R109). -/
theorem State.Fresh.bitsCore_sixtyFour {key : Key} {s : State} (hs : s.Fresh) :
    bitsCore key 64 s = some (join64 (coreBlock key s.nonce s.ctr)[1] (coreBlock key s.nonce s.ctr)[0],
      (((s.generate key).takeWord 0).takeWord 1).takeWord 2) := by
  have hfirst : bitsCore key 64 s = bitsLoop key 2 0 (32 + (32 + 0)) ((s.generate key).takeWord 0) := by
    rw [bitsCore, bitsLoop_turn (by simp [hs.avail_val]) hs.refill, hs.avail_val, appendBits_no_bits]
  rw [hfirst, bitsLoop_turn_word 1 rfl rfl, bitsLoop_turn_word 2 rfl rfl, bitsLoop_no_bits (by simp),
    appendBits_two_words]
  rfl

/-- Settles O34: the three turns of `State.Fresh.bitsCore_sixtyFour`. -/
theorem bitsSixtyFourOnAFreshStream : Obligations.BitsSixtyFourOnAFreshStream := by
  intro s hstream hfault hs
  rw [exec_bits_of_draw (Nat.le_refl 64) hstream hfault hs.bitsCore_sixtyFour, split64_join64,
    State.generate, hs.1]
  rfl

end Sys2Proof.Machine
end

section
/-! PROOF. The status word bit by bit (R131): three ranges of bits, which AVAIL < 2^6 and CUR < 2^5 keep apart; and STATUS (R130), which answers it. -/

namespace Sys2Proof.Machine

theorem flagWord_getLsbD (b : Bool) (k : Nat) : (flagWord b).getLsbD k = (decide (k = 0) && b) := by
  cases b <;> simp [flagWord]

/-- A number of a bounded register has no bit above those that its bound needs. -/
theorem testBit_fin_of_le {m n j : Nat} (i : Fin m) (hm : m ≤ 2 ^ n) (hj : n ≤ j) :
    i.val.testBit j = false :=
  Nat.testBit_lt_two_pow (calc
    i.val < m := i.isLt
    _ ≤ 2 ^ n := hm
    _ ≤ 2 ^ j := Nat.pow_le_pow_right (by decide) hj)

/-- A range of bits of a word, read off bit by bit: a field, or with `v` = 0 reserved bits. -/
theorem extractLsb'_eq_ofNat {w : Word} {start len v : Nat}
    (h : ∀ j < len, w.getLsbD (start + j) = v.testBit j) :
    w.extractLsb' start len = BitVec.ofNat len v :=
  BitVec.eq_of_getLsbD_eq fun j hj => by
    rw [BitVec.getLsbD_extractLsb', h j hj, BitVec.getLsbD_ofNat]

/-- A bit of SR is a bit of one of the four terms of R130. -/
theorem statusWord_getLsbD (s : State) {k : Nat} (hk : k < 32) :
    (statusWord s).getLsbD k = (decide (16 ≤ k) && s.cur.val.testBit (k - 16) ||
      decide (8 ≤ k) && s.avail.val.testBit (k - 8) || decide (k = 1) && s.fault ||
        decide (k = 0) && s.stream) := by
  have hshift : ∀ (w : Word) (n : Nat), (w <<< n).getLsbD k = (decide (n ≤ k) && w.getLsbD (k - n)) :=
    fun w n => by
      simp only [BitVec.getLsbD_shiftLeft, hk, decide_true, Bool.true_and, ← decide_not, Nat.not_lt]
  have hnat : ∀ m n : Nat, (BitVec.ofNat 32 m).getLsbD (k - n) = m.testBit (k - n) := fun m n => by
    rw [BitVec.getLsbD_ofNat, decide_eq_true (by omega), Bool.true_and]
  have hone : (decide (1 ≤ k) && decide (k - 1 = 0)) = decide (k = 1) := by
    rw [← Bool.decide_and]
    exact decide_eq_decide.mpr (by omega)
  simp only [statusWord, BitVec.getLsbD_or, hshift, hnat, flagWord_getLsbD, ← Bool.and_assoc, hone]

theorem statusWord_getLsbD_of_lt_eight (s : State) {k : Nat} (hk : k < 8) :
    (statusWord s).getLsbD k = (decide (k = 1) && s.fault || decide (k = 0) && s.stream) := by
  have hcur : ¬16 ≤ k := by omega
  have havail : ¬8 ≤ k := by omega
  simp [statusWord_getLsbD s (k := k) (by omega), hcur, havail]

theorem statusWord_getLsbD_eight_add (s : State) {j : Nat} (hj : j < 8) :
    (statusWord s).getLsbD (8 + j) = s.avail.val.testBit j := by
  have hcur : ¬16 ≤ 8 + j := by omega
  have hfault : 8 + j ≠ 1 := by omega
  simp [statusWord_getLsbD s (k := 8 + j) (by omega), hcur, hfault]

/-- From bit 16 SR shows CUR alone: AVAIL, shifted by 8, ends below bit 14. -/
theorem statusWord_getLsbD_sixteen_add (s : State) {j : Nat} (hj : j < 16) :
    (statusWord s).getLsbD (16 + j) = s.cur.val.testBit j := by
  have havail : s.avail.val.testBit (16 + j - 8) = false :=
    testBit_fin_of_le (n := 6) s.avail (by decide) (by omega)
  have hfault : 16 + j ≠ 1 := by omega
  simp [statusWord_getLsbD s (k := 16 + j) (by omega), havail, hfault]

/-- Settles O49: each field lies in one of the three ranges, and its reserved bits are above the bound of the register or beside the flags. -/
theorem statusWordFields : Obligations.StatusWordFields := by
  refine ⟨fun s => ⟨?stream, ?fault, ?low, ?avail, ?middle, ?cur, ?high⟩, by decide⟩
  case stream => simpa using statusWord_getLsbD_of_lt_eight s (k := 0) (by decide)
  case fault => simpa using statusWord_getLsbD_of_lt_eight s (k := 1) (by decide)
  case low =>
    refine extractLsb'_eq_ofNat (v := 0) fun j hj => ?_
    have hfault : 2 + j ≠ 1 := by omega
    simp [statusWord_getLsbD_of_lt_eight s (k := 2 + j) (by omega), hfault]
  case avail =>
    rw [extractLsb'_eq_ofNat fun j hj => statusWord_getLsbD_eight_add s (by omega),
      BitVec.toNat_ofNat, Nat.mod_eq_of_lt (by omega)]
  case middle =>
    refine extractLsb'_eq_ofNat (v := 0) fun j hj => ?_
    rw [show 14 + j = 8 + (6 + j) by omega, statusWord_getLsbD_eight_add s (by omega),
      testBit_fin_of_le (n := 6) s.avail (by decide) (by omega), Nat.zero_testBit]
  case cur =>
    rw [extractLsb'_eq_ofNat fun j hj => statusWord_getLsbD_sixteen_add s (by omega),
      BitVec.toNat_ofNat, Nat.mod_eq_of_lt (by omega)]
  case high =>
    refine extractLsb'_eq_ofNat (v := 0) fun j hj => ?_
    rw [show 21 + j = 16 + (5 + j) by omega, statusWord_getLsbD_sixteen_add s (by omega),
      testBit_fin_of_le (n := 5) s.cur (by decide) (by omega), Nat.zero_testBit]

theorem statusCmd_words (s : State) :
    (statusCmd s).2.words = 0x04000000 :: statusWord s :: split64 s.ctr := by
  have hword : responseWord (opCode .status) .ok = 0x04000000 := by decide
  rw [statusCmd, respondOk_snd, Response.words_eq, hword]

/-- Settles O48: STATUS delivers the words of `statusCmd_words` and the state it was given. -/
theorem statusReportsTheStream : Obligations.StatusReportsTheStream := by
  refine fun s => ⟨by decide, deliver_eq_next.mpr ?_⟩
  rw [statusCmd_words]
  rfl

end Sys2Proof.Machine
end

section
/-! PROOF. The errors of BITS (60_exceptions.md R143 to R145): a check of R147 that fails answers one word and writes no register, and exhaustion leaves FAULT alone behind. The idle step (R157). -/

namespace Sys2Proof.Machine

/-- A draw that needs a block the counter cannot give ends without a value, however many words it takes first (R103). -/
theorem bitsCore_eq_none (key : Key) {n : Nat} {s : State} (hn : n ≤ 64)
    (hex : exhausts n s = true) : bitsCore key n s = none := by
  have hturns := refillCount_le_three n s.avail.val hn
  exact (bitsLoop_draws key 3 0 n s hturns (by omega)).1 hex

/-- Settles O29: the draw ends without a value, and `exhaust` starts from the state before the command. -/
theorem bitsExhaustionDiscardsItsWrites : Obligations.BitsExhaustionDiscardsItsWrites := by
  intro n s hn hstream hfault hctr hwords
  have hex : exhausts n s = true := decide_eq_true ⟨hctr, hwords⟩
  exact exec_bits_of_exhausted hn hstream hfault (bitsCore_eq_none Config.key hn hex)

/-- Settles O12: nothing to read, to accept or to wait for. -/
theorem idleBlockHoldsItsState : Obligations.IdleBlockHoldsItsState :=
  fun _ => step_of_idle

/-- A BITS that a check of R147 stops answers its result code alone and writes no register (R140). -/
theorem exec_bits_of_abort {n : Nat} {rc : ResultCode} {s : State}
    (h : bitsCmd Config.key n s = abort (opCode .bits) rc s) :
    exec (.bits n) s = .next (s.putResponse [responseWord 0x02 rc]) := by
  refine deliver_eq_next.mpr ?_
  rw [h, abort_fst, abort_snd, Response.words_eq]
  rfl

/-- Settles O27: the second check of R147. -/
theorem bitsWithoutAStreamIsNoStream : Obligations.BitsWithoutAStreamIsNoStream := by
  intro n s hn hstream
  have hcmd : bitsCmd Config.key n s = abort (opCode .bits) .noStream s := by
    rw [bitsCmd, if_neg (Nat.not_lt.mpr hn), if_pos hstream]
  have hword : responseWord 0x02 .noStream = 0x02000003 := by decide
  rw [exec_bits_of_abort hcmd, hword]
  rfl

/-- Settles O28: the third check of R147. -/
theorem bitsOnAnAbortedStreamIsFaulted : Obligations.BitsOnAnAbortedStreamIsFaulted := by
  intro n s hn hstream hfault
  have hcmd : bitsCmd Config.key n s = abort (opCode .bits) .faulted s := by
    rw [bitsCmd, if_neg (Nat.not_lt.mpr hn), if_neg (by simp [hstream]), if_pos hfault]
  have hword : responseWord 0x02 .faulted = 0x02000004 := by decide
  rw [exec_bits_of_abort hcmd, hword]
  rfl

end Sys2Proof.Machine
end

section
/-! PROOF. What reset leaves (R160, R162), and that the responses after an INIT depend on its nonce and the commands after it alone (R118, R164): every command takes two states of the same stream to two states of the same stream, with the same response. -/

namespace Sys2Proof.Machine

/-- Settles O53: `State.reset` is the case of its own WBUF. -/
theorem resetValues : Obligations.ResetValues :=
  ⟨fun _ _ => rfl, State.reset.wbuf, rfl⟩

/-- Settles O54: every other register that INIT 0 writes is at its reset value already. -/
theorem initZeroAfterReset : Obligations.InitZeroAfterReset := by
  obtain ⟨-, hexec⟩ := initStartsAStream 0 State.reset
  exact hexec

/-- After INIT no register but WBUF, which is spent, keeps anything from before. -/
theorem sameStream_startStream (s t : State) (nonce : DWord) :
    SameStream (s.startStream nonce) (t.startStream nonce) :=
  ⟨rfl, rfl, rfl, rfl, rfl, rfl, rfl, .inl rfl⟩

theorem SameStream.setFault {s t : State} (h : SameStream s t) : SameStream s.setFault t.setFault :=
  { h with fault := rfl }

theorem SameStream.consume {s t : State} (h : SameStream s t) (n : Nat) :
    SameStream (s.consume n) (t.consume n) :=
  { h with
    res := congrArg (shr32 · n) h.res
    avail := by simp [h.avail] }

theorem SameStream.takeWord {s t : State} (h : SameStream s t) (hw : s.wbuf = t.wbuf) (i : Fin 16) :
    SameStream (s.takeWord i) (t.takeWord i) :=
  { h with
    cur := rfl
    res := congrArg (fun block : Block => block[i]) hw
    avail := rfl
    wbuf := .inr hw }

/-- A new block is that of NONCE and CTR alone (R80). -/
theorem SameStream.generate_wbuf {s t : State} (h : SameStream s t) (key : Key) :
    (s.generate key).wbuf = (t.generate key).wbuf :=
  congrArg₂ (coreBlock key) h.nonce h.ctr

theorem SameStream.generate {s t : State} (h : SameStream s t) (key : Key) :
    SameStream (s.generate key) (t.generate key) :=
  { h with
    ctr := congrArg (· + 1) h.ctr
    cur := rfl
    wbuf := .inr (h.generate_wbuf key) }

/-- A refill reads WBUF only where the two agree, when a word of it is left. -/
theorem SameStream.refill {s t : State} (h : SameStream s t) (key : Key) :
    (refill key s = none ∧ refill key t = none) ∨
      ∃ u v, refill key s = some u ∧ refill key t = some v ∧ SameStream u v := by
  obtain ⟨hlt, e⟩ | ⟨hcur, hctr, e⟩ | ⟨hcur, hctr, e⟩ := refill_cases key s
  · have hw : s.wbuf = t.wbuf := h.wbuf.resolve_left (Fin.ne_of_val_ne hlt.ne)
    exact .inr ⟨_, _, e, refill_of_lt (i := ⟨s.cur.val, hlt⟩) (congrArg Fin.val h.cur.symm),
      h.takeWord hw _⟩
  · exact .inl ⟨e, refill_of_last (h.cur.symm.trans (Fin.ext hcur)) (h.ctr ▸ hctr)⟩
  · exact .inr ⟨_, _, e, refill_of_spent (h.cur.symm.trans (Fin.ext hcur)) (h.ctr ▸ hctr),
      (h.generate key).takeWord (h.generate_wbuf key) 0⟩

theorem bitsFinish_of_res_eq {s t : State} (h : s.res = t.res) (r : DWord) (n : Nat) :
    bitsFinish r n t = (appendBits r n s.res, t.consume n) := by
  rw [bitsFinish, h]

/-- A draw ends without a value in both states, or with the same value in both. -/
theorem SameStream.bitsLoop (key : Key) (fuel : Nat) : ∀ {s t : State} (r : DWord) (n : Nat),
    SameStream s t →
      (bitsLoop key fuel r n s = none ∧ bitsLoop key fuel r n t = none) ∨
        ∃ q u v, bitsLoop key fuel r n s = some (q, u) ∧ bitsLoop key fuel r n t = some (q, v) ∧
          SameStream u v := by
  induction fuel with
  | zero =>
    exact fun r n h => .inr ⟨_, _, _, rfl, congrArg some (bitsFinish_of_res_eq h.res r n), h.consume n⟩
  | succ fuel ih =>
    intro s t r n h
    rcases Nat.lt_or_ge n s.avail.val with hn | hn
    · rw [bitsLoop_done hn, bitsLoop_done (h.avail ▸ hn), bitsFinish_of_res_eq h.res]
      exact .inr ⟨_, _, _, rfl, rfl, h.consume n⟩
    obtain ⟨hs, ht⟩ | ⟨u, v, hs, ht, huv⟩ := h.refill key
    · exact .inl ⟨bitsLoop_none hn hs, bitsLoop_none (h.avail ▸ hn) ht⟩
    · rw [bitsLoop_turn hn hs, bitsLoop_turn (h.avail ▸ hn) ht, ← h.avail, ← h.res]
      exact ih _ _ huv

/-- Two outcomes of a command with the same response, and states of the same stream. -/
def SameAnswer (p q : State × Response) : Prop := SameStream p.1 q.1 ∧ p.2 = q.2

/-- The checks of R147 read registers that agree, and so does the draw after them. -/
theorem SameStream.bitsCmd {s t : State} (h : SameStream s t) (key : Key) (n : Nat) :
    SameAnswer (bitsCmd key n s) (bitsCmd key n t) := by
  rw [Machine.bitsCmd, Machine.bitsCmd, ← h.stream, ← h.fault]
  split
  · exact ⟨h, rfl⟩
  split
  · exact ⟨h, rfl⟩
  split
  · exact ⟨h, rfl⟩
  obtain ⟨hs, ht⟩ | ⟨r, u, v, hs, ht, huv⟩ := SameStream.bitsLoop key 3 0 n h
  · rw [bitsCore, bitsCore, hs, ht]
    exact ⟨h.setFault, rfl⟩
  · rw [bitsCore, bitsCore, hs, ht]
    exact ⟨huv, rfl⟩

theorem SameStream.statusWord_eq {s t : State} (h : SameStream s t) : statusWord s = statusWord t := by
  rw [statusWord, statusWord, h.cur, h.avail, h.fault, h.stream]

/-- Every command keeps two states in the same stream and gives them the same response. -/
theorem SameStream.transact {s t : State} (h : SameStream s t) (key : Key) (i : Instr) :
    SameAnswer (transact key s i) (transact key t i) := by
  cases i with
  | init nonce => exact ⟨sameStream_startStream s t nonce, rfl⟩
  | bits n => exact h.bitsCmd key n
  | block nonce counter => exact ⟨h, rfl⟩
  | status =>
    have hstatus : (statusCmd s).2 = (statusCmd t).2 := by
      simp [statusCmd, h.statusWord_eq, h.ctr]
    exact ⟨h, hstatus⟩

/-- Two states of the same stream answer every sequence of commands alike. -/
theorem SameStream.responses_eq (key : Key) (is : List Instr) : ∀ {s t : State}, SameStream s t →
    responses key s is = responses key t is := by
  induction is with
  | nil => exact fun _ => rfl
  | cons i is ih =>
    intro s t h
    obtain ⟨hstates, hanswer⟩ := h.transact key i
    exact congrArg₂ List.cons hanswer (ih hstates)

/-- Settles O45: INIT answers alike and puts any two states into the same stream. -/
theorem streamIsDeterminedByNonceAndCommands : Obligations.StreamIsDeterminedByNonceAndCommands :=
  fun key s t nonce is =>
    congrArg (_ :: ·) (SameStream.responses_eq key is (sameStream_startStream s t nonce))

end Sys2Proof.Machine
end

section
/-! PROOF. The encoding of commands (R50 to R55, R60): the decoder takes the packet of a command back, whatever words follow it, and reads a command from no other words. -/

namespace Sys2Proof.Machine

theorem classify_commandWord_zero (op : Op) : classify (commandWord op 0) = .ok op := by
  cases op <;> decide

theorem decode_of_classify {cw : Word} {op : Op} (hc : classify cw = .ok op) (ws : List Word) :
    decode (cw :: ws) = readOperands op cw ws := by
  rw [decode, hc]

/-- Settles O1: the command word selects the command, and the operands are joined from their halves; a count keeps its value in the seven bits of N. -/
theorem decodeOfEncodeIsTheCommand : Obligations.DecodeOfEncodeIsTheCommand := by
  intro i rest hwf
  cases i with
  | init nonce =>
    calc decode (encode (.init nonce) ++ rest)
      _ = .complete (.init (join64 (lo32 nonce) (hi32 nonce))) rest :=
        decode_of_classify (classify_commandWord_zero .init) _
      _ = .complete (.init nonce) rest := by rw [join64_lo32_hi32]
  | bits n =>
    have hn : n < 128 := of_decide_eq_true hwf
    obtain ⟨hc, hcount⟩ := commandWord_bits (BitVec.ofNat 7 n)
    calc decode (encode (.bits n) ++ rest)
      _ = .complete (.bits (countField (commandWord .bits (BitVec.ofNat 7 n))).toNat) rest :=
        decode_of_classify hc _
      _ = .complete (.bits n) rest := by rw [hcount, BitVec.toNat_ofNat, Nat.mod_eq_of_lt hn]
  | block nonce counter =>
    calc decode (encode (.block nonce counter) ++ rest)
      _ = .complete (.block (join64 (lo32 nonce) (hi32 nonce))
            (join64 (lo32 counter) (hi32 counter))) rest :=
        decode_of_classify (classify_commandWord_zero .block) _
      _ = .complete (.block nonce counter) rest := by rw [join64_lo32_hi32, join64_lo32_hi32]
  | status => exact decode_of_classify (classify_commandWord_zero .status) rest

/-- A command word is made of its OP and N fields alone (R51, R55). -/
theorem eq_commandWord_of_classify {cw : Word} {op : Op} (hc : classify cw = .ok op) :
    cw = commandWord op (countField cw) := by
  obtain ⟨hop, hrsv, -⟩ := (classify_eq_ok cw op).mp hc
  rw [commandWord, ← hop]
  exact word_of_fields cw hrsv

theorem eq_commandWord_zero_of_classify {cw : Word} {op : Op} (hc : classify cw = .ok op)
    (hop : op ≠ .bits) : cw = commandWord op 0 := by
  obtain ⟨-, -, hcount⟩ := (classify_eq_ok cw op).mp hc
  rw [← hcount.resolve_left hop]
  exact eq_commandWord_of_classify hc

/-- The operands read behind a legal command word are those that the encoder writes there. -/
theorem eq_encode_of_readOperands {cw : Word} {op : Op} {ws rest : List Word} {i : Instr}
    (hc : classify cw = .ok op) (h : readOperands op cw ws = .complete i rest) :
    i.wf = true ∧ cw :: ws = encode i ++ rest := by
  cases op with
  | init =>
    obtain rfl := eq_commandWord_zero_of_classify hc nofun
    match ws, h with
    | nonceLo :: nonceHi :: _, rfl => exact ⟨rfl, by rw [encode, split64_join64]; rfl⟩
  | bits =>
    cases h
    refine ⟨decide_eq_true (countField cw).isLt, ?_⟩
    rw [encode, BitVec.ofNat_toNat, BitVec.setWidth_eq, ← eq_commandWord_of_classify hc]
    rfl
  | block =>
    obtain rfl := eq_commandWord_zero_of_classify hc nofun
    match ws, h with
    | nonceLo :: nonceHi :: ctrLo :: ctrHi :: _, rfl =>
      exact ⟨rfl, by rw [encode, split64_join64, split64_join64]; rfl⟩
  | status =>
    obtain rfl := eq_commandWord_zero_of_classify hc nofun
    cases h
    exact ⟨rfl, rfl⟩

/-- Settles O2: only a legal command word and its operands decode to a command. -/
theorem decodedWordsAreTheEncoding : Obligations.DecodedWordsAreTheEncoding := by
  intro ws rest i h
  cases ws with
  | nil => cases h
  | cons cw ws =>
    obtain ⟨why, -, e⟩ | ⟨op, hc, e⟩ := decode_cons cw ws
    · cases e.symm.trans h
    · exact eq_encode_of_readOperands hc (e.symm.trans h)

/-- Settles O4: the decoder on each packet. -/
theorem specWordsDecode : Obligations.SpecWordsDecode :=
  ⟨by decide, by decide, by decide, by decide⟩

end Sys2Proof.Machine
end

section
/-! PROOF. A packet on the port (R45 to R47, R60): its words are kept one by one, the last one runs the command, and the host reads the response; a table word is such a packet with its last word still offered (log entry 14). -/

namespace Sys2Proof.Machine

/-- Settles O8: the word offered completes the packet, and the received words become those after it. -/
theorem stepRunsTheDecodedCommand : Obligations.StepRunsTheDecodedCommand := by
  intro s i w offered rest hr hs hd
  rw [step_of_hostSends hr hs, receive, hd]
  rfl

/-- Settles O9: the word offered joins the received words. -/
theorem stepKeepsAPartOfAPacket : Obligations.StepKeepsAPartOfAPacket := by
  intro s w offered hr hs hd
  rw [step_of_hostSends hr hs, receive, hd]
  rfl

/-- Words after a whole packet do not change what it decodes to. -/
theorem decode_append_of_complete {ws rest : List Word} {i : Instr}
    (h : decode ws = .complete i rest) (more : List Word) :
    decode (ws ++ more) = .complete i (rest ++ more) := by
  obtain ⟨hwf, rfl⟩ := decodedWordsAreTheEncoding ws rest i h
  rw [List.append_assoc]
  exact decodeOfEncodeIsTheCommand i (rest ++ more) hwf

theorem decode_append_ne_complete_of_illegal {ws rest : List Word} {cw : Word} {why : Reject}
    (h : decode ws = .illegal cw why rest) (more : List Word) (i : Instr) (rest' : List Word) :
    decode (ws ++ more) ≠ .complete i rest' := by
  cases ws with
  | nil => cases h
  | cons cw' ws =>
    obtain ⟨why', hc, -⟩ | ⟨op, hc, -⟩ := decode_cons cw' ws
    · simp [decode, hc]
    · exact absurd h (decode_ne_illegal hc ws rest cw why)

/-- A command's packet without its last words is not whole. -/
theorem decode_of_append_eq_encode {i : Instr} {packet missing : List Word} (hwf : i.wf = true)
    (h : packet ++ missing = encode i) (hmissing : missing ≠ []) : decode packet = .incomplete := by
  have hwhole : decode (packet ++ missing) = .complete i [] := by
    simpa [h] using decodeOfEncodeIsTheCommand i [] hwf
  cases hd : decode packet with
  | complete j rest =>
    have hlonger := (decode_append_of_complete hd missing).symm.trans hwhole
    simp [hmissing] at hlonger
  | illegal cw why rest => exact absurd hwhole (decode_append_ne_complete_of_illegal hd missing i [])
  | incomplete => rfl

/-- The words of a packet that are still to come run its command, in one step each. -/
theorem steps_of_packet {i : Instr} {offered : List Word} (hwf : i.wf = true) (ws : List Word) :
    ∀ {s t : State}, ws ≠ [] → s.response = [] → s.hostSends = ws ++ offered →
      s.rxPacket ++ ws = encode i → exec i (s.accept [] offered) = .next t →
      steps ws.length s = .next t := by
  induction ws with
  | nil => exact fun hne => absurd rfl hne
  | cons w ws ih =>
    intro s t _ hr hs hpacket hexec
    have hpacket' : (s.rxPacket ++ [w]) ++ ws = encode i := by simpa using hpacket
    by_cases hlast : ws = []
    · subst hlast
      have hd : decode (s.rxPacket ++ [w]) = .complete i [] := by
        simpa [hpacket] using decodeOfEncodeIsTheCommand i [] hwf
      have hstep : step s = .next t :=
        (stepRunsTheDecodedCommand s i w offered [] hr hs hd).trans hexec
      simp [steps, hstep]
    · have hd := decode_of_append_eq_encode hwf hpacket' hlast
      have hstep : step s = .next (s.accept (s.rxPacket ++ [w]) (ws ++ offered)) :=
        stepKeepsAPartOfAPacket s w (ws ++ offered) hr hs hd
      rw [List.length_cons, steps, hstep]
      exact ih hlast hr rfl hpacket' hexec

/-- No command reads a response word. -/
theorem exec_hostGot {i : Instr} {s t : State} (h : exec i s = .next t) : t.hostGot = s.hostGot := by
  obtain ⟨nonce, -, rfl⟩ | ⟨-, -, -, -, -, -, rfl⟩ | ⟨n, r, u, -, hn, -, -, hdraw, ws, rfl⟩ | ⟨ws, rfl⟩ :=
    exec_eq_next h
  · rfl
  · rfl
  · obtain ⟨-, -, hframe⟩ := bitsCore_eq_some hn hdraw
    exact hframe.hostGot
  · rfl

/-- As many steps as a response has words read it whole (R46). -/
theorem steps_response_length (s : State) :
    steps s.response.length s =
      .next { s with response := [], hostGot := s.hostGot ++ s.response } := by
  simpa using portHoldsWordsUntilTheResponseIsRead s s.response.length (Nat.le_refl _)

theorem encode_ne_nil (i : Instr) : encode i ≠ [] := by
  cases i <;> exact List.cons_ne_nil _ _

/-- Settles O11: `steps_of_packet` from an empty port, then the reading of the response. -/
theorem packetRunsAndIsReadBack : Obligations.PacketRunsAndIsReadBack := by
  intro s i offered hwf hr hp hs
  have hport : s.accept [] offered = { s with hostSends := offered } := by rw [State.accept, ← hp]
  obtain ⟨t, ht⟩ := exists_exec_eq_next i (s.accept [] offered)
  have hrun : steps (encode i).length s = .next t :=
    steps_of_packet hwf (encode i) (encode_ne_nil i) hr hs (by rw [hp, List.nil_append]) ht
  refine ⟨t, hport ▸ ht, hrun, ?_⟩
  rw [steps_add _ hrun, steps_response_length, exec_hostGot ht]
  rfl

/-- A table packet that decodes to a command has no words after it. -/
theorem decode_tablePacket {nbits w : Nat} {i : Instr} (h : decodeTableWord nbits w = some i) :
    decode (tablePacket nbits w) = .complete i [] := by
  have hfront : ∃ cw ws, tablePacket nbits w = (cw :: ws).take (packetLength cw) := ⟨_, _, rfl⟩
  obtain ⟨cw, ws, hpacket⟩ := hfront
  rw [decodeTableWord] at h
  obtain ⟨k, hk⟩ := Nat.exists_eq_add_one.mpr (packetLength_pos cw)
  rw [hk, List.take_succ_cons] at hpacket
  have hrest : (cw :: ws.take k).drop (packetLength cw) = [] :=
    List.drop_eq_nil_of_le (by simp [hk])
  rw [hpacket] at h ⊢
  obtain ⟨-, e⟩ | ⟨j, e⟩ | ⟨why, e⟩ := hrest ▸ decode_cases cw (ws.take k)
  · simp [e] at h
  · simpa [e] using h
  · simp [e] at h

/-- Settles O14: the one word of the packet that is still offered completes it. -/
theorem fetchWordIsRunNext : Obligations.FetchWordIsRunNext := by
  intro s nbits w i h
  have hd := decode_tablePacket h
  have hne : tablePacket nbits w ≠ [] := fun hnil => by simp [hnil, decode] at hd
  have hlast := List.dropLast_append_getLast hne
  have hfetch : s.withFetchWord nbits w = { s with
      response := []
      rxPacket := (tablePacket nbits w).dropLast
      hostSends := (tablePacket nbits w).getLast hne :: s.hostSends } := by
    rw [State.withFetchWord, ← List.dropLast_eq_take, List.drop_length_sub_one hne]
    rfl
  rw [hfetch]
  exact stepRunsTheDecodedCommand _ i _ s.hostSends [] rfl rfl (by rw [hlast, hd])

end Sys2Proof.Machine
end

section
/-! PROOF. The response of a command (R13, R57 to R60, R147): the words of the transaction's response, which a host reads back as one packet, and the result code of BITS. -/

namespace Sys2Proof.Machine

theorem exec_eq_deliver_transact (i : Instr) (s : State) :
    exec i s = deliver (transact Config.key s i) := by
  cases i <;> rfl

/-- Settles O15: `deliver` puts the words of the response on the port. -/
theorem execIsTheTransaction : Obligations.ExecIsTheTransaction :=
  exec_eq_deliver_transact

/-- A response has as many data words as its response word announces (R59). -/
def Response.Announced (r : Response) : Prop := dataLength r.ope r.rc = some r.data.length

theorem dataLength_ok (op : Op) : dataLength (opCode op) .ok = some (dataCount op) := by
  cases op <;> rfl

theorem respondOk_announced {op : Op} {data : List Word} (h : data.length = dataCount op) (s : State) :
    (respondOk op data s).2.Announced := by
  rw [respondOk_snd, Response.Announced, dataLength_ok, h]

theorem abort_announced {rc : ResultCode} (h : rc ≠ .ok) (ope : BitVec 8) (s : State) :
    (abort ope rc s).2.Announced := by
  cases rc with
  | ok => exact absurd rfl h
  | illegal | usage | noStream | faulted | exhausted => rfl

theorem bitsCmd_announced (key : Key) (n : Nat) (s : State) : (bitsCmd key n s).2.Announced := by
  obtain ⟨-, e⟩ | ⟨-, -, e⟩ | ⟨-, -, -, e⟩ | ⟨-, -, -, -, e⟩ | ⟨-, -, -, r, t, -, e⟩ :=
    bitsCmd_cases key n s <;> rw [e]
  · exact abort_announced (by decide) _ s
  · exact abort_announced (by decide) _ s
  · exact abort_announced (by decide) _ s
  · exact abort_announced (by decide) _ s.setFault
  · exact respondOk_announced rfl t

theorem transact_announced (key : Key) (s : State) (i : Instr) : (transact key s i).2.Announced := by
  cases i with
  | init nonce => exact respondOk_announced rfl _
  | bits n => exact bitsCmd_announced key n s
  | block nonce counter => exact respondOk_announced Vector.length_toList s
  | status => exact respondOk_announced rfl s

theorem ResultCode.ofCode_code (rc : ResultCode) : ResultCode.ofCode rc.code = some rc := by
  cases rc <;> rfl

/-- The host's reading finds an announced response and the words after it (R60). -/
theorem Response.parse_words_append {r : Response} (h : r.Announced) (more : List Word) :
    Response.parse (r.words ++ more) = some (r, more) := by
  obtain ⟨ope, rc, data⟩ := r
  obtain ⟨hope, hzero, hcode⟩ := responseWordFields ope rc
  have hlen : dataLength ope rc = some data.length := h
  simp [Response.parse, hope, hzero, hcode, ResultCode.ofCode_code, hlen]

/-- Settles O6: the response of the transaction is announced, and `exec` delivers its words. -/
theorem everyCommandIsAnsweredByOnePacket : Obligations.EveryCommandIsAnsweredByOnePacket := by
  intro i s
  have hannounced := transact_announced Config.key s i
  exact ⟨_, _, exec_eq_deliver_transact i s, rfl, hannounced,
    Response.parse_words_append hannounced⟩

/-- The first of the checks of R147 that applies. -/
def bitsResultCode (n : Nat) (s : State) : ResultCode :=
  if 64 < n then .usage
  else if s.stream = false then .noStream
  else if s.fault = true then .faulted
  else if exhausts n s = true then .exhausted
  else .ok

/-- A draw gives no value only when it exhausts the stream (R103). -/
theorem exhausts_of_bitsCore_eq_none {key : Key} {n : Nat} {s : State} (hn : n ≤ 64)
    (h : bitsCore key n s = none) : exhausts n s = true := by
  by_contra hex
  obtain ⟨r, t, hsome⟩ := exists_bitsCore_eq_some key hn (eq_false_of_ne_true hex)
  cases h.symm.trans hsome

theorem bitsCmd_ope_rc (key : Key) (n : Nat) (s : State) :
    (bitsCmd key n s).2.ope = 0x02 ∧ (bitsCmd key n s).2.rc = bitsResultCode n s := by
  obtain ⟨hn, e⟩ | ⟨hn, hs, e⟩ | ⟨hn, hs, hf, e⟩ | ⟨hn, hs, hf, hnone, e⟩ | ⟨hn, hs, hf, r, t, hsome, e⟩ :=
    bitsCmd_cases key n s <;> rw [e]
  · exact ⟨rfl, by simp [bitsResultCode, hn]⟩
  · exact ⟨rfl, by simp [bitsResultCode, Nat.not_lt.mpr hn, hs]⟩
  · exact ⟨rfl, by simp [bitsResultCode, Nat.not_lt.mpr hn, hs, hf]⟩
  · have hex := exhausts_of_bitsCore_eq_none hn hnone
    exact ⟨rfl, by simp [bitsResultCode, Nat.not_lt.mpr hn, hs, hf, hex]⟩
  · obtain ⟨hex, -, -⟩ := bitsCore_eq_some hn hsome
    exact ⟨rfl, by simp [bitsResultCode, Nat.not_lt.mpr hn, hs, hf, hex]⟩

/-- Settles O30: the response word of BITS shows the code of `bitsCmd_ope_rc`. -/
theorem bitsResultCodeInPriorityOrder : Obligations.BitsResultCodeInPriorityOrder := by
  intro n s
  obtain ⟨hope, hrc⟩ := bitsCmd_ope_rc Config.key n s
  exact ⟨_, _, _, exec_eq_deliver_transact (.bits n) s, rfl, congrArg₂ responseWord hope hrc⟩

end Sys2Proof.Machine
end

section
/-! PROOF. The word buffer and the invariant (R32, R79, R160): reset meets the invariant, a spent WBUF is never seen, and in a Running state WBUF is the block of the last counter used. -/

namespace Sys2Proof.Machine

/-- Settles O40: reset leaves the Fresh form, clear flags and an empty port. -/
theorem resetMeetsTheInvariant : Obligations.ResetMeetsTheInvariant where
  streamForm := .inl ⟨rfl, rfl, rfl, rfl⟩
  flags := ⟨fun _ => ⟨⟨rfl, rfl, rfl, rfl⟩, rfl⟩, nofun⟩
  port := portInv_of_rxPacket_eq_nil rfl

/-- Settles O44: every command keeps two such states in the same stream (`SameStream.transact`). -/
theorem spentWordBufferIsInvisible : Obligations.SpentWordBufferIsInvisible :=
  fun key _ _ is => SameStream.responses_eq key is

/-- Settles O22: a state with a block generated is Running, so WBUF holds the block that BLOCK computes. -/
theorem blockAgreesWithTheStream : Obligations.BlockAgreesWithTheStream := by
  intro s hs hctr
  obtain ⟨hzero, -⟩ | ⟨-, -, -, hblock, -⟩ := hs.streamInv
  · exact absurd hzero hctr
  · obtain ⟨-, hexec⟩ := blockAnswersTheCore s.nonce (s.ctr - 1) s
    rw [hexec, ← hblock]

end Sys2Proof.Machine
end
